-- ==== Sys2Proof/Word.lean ====
section
/-! DEFINITION. The word types of the CORE: what the spec treats as bits is a bit vector, a register
number is an index into the register file. -/

namespace Sys2Proof

/-- A register value, an address or the program counter: 64 bits (R5 `XLEN`, R11, R15). -/
abbrev Word := BitVec 64

/-- One byte, the unit that memory is addressed in (R24, R30). -/
abbrev Byte := BitVec 8

/-- One instruction word (R50, R51). -/
abbrev IWord := BitVec 32

/-- The 12-bit literal field of an instruction word, before it is read as signed or unsigned (R51, R53). -/
abbrev Lit := BitVec 12

/-- A register number 0 to 31 (R5 `NREGS`, R11); every value of a 5-bit field is one (R52). -/
abbrev Reg := Fin 32

end Sys2Proof
end

