-- ==== Sys2Proof/Machine/Bytes.lean ====
section
/-! DEFINITION. Byte order (R34): the value of a list of bytes and the bytes of a value, least significant
byte first. Memory, fetch, the program image and the decoder all go through these two. -/

namespace Sys2Proof.Machine

/-- The number whose bytes are given, the first byte the least significant:
`sum over i of b[i] * 256^i` (R34). Little-endian is the spec's decision D4 (PRESUMED, log entry 4). -/
def leValue : List Byte → Nat
  | [] => 0
  | b :: bs => b.toNat + 256 * leValue bs

/-- The `n` low bytes of `v`, byte `i` being `(v / 256^i) mod 256` (R34). -/
def leBytes : Nat → Nat → List Byte
  | 0, _ => []
  | n + 1, v => BitVec.ofNat 8 v :: leBytes n (v / 256)

end Sys2Proof.Machine
end

