-- ==== Sys2Proof/Config.lean ====
section
/-! DEFINITION. What an implementation fixes: the widths the source fixes (R5) and the one value that the
spec leaves free, the pattern of a NaN result (R120(e), U4). The parameters to which the spec gives a default
(`MEM_SIZE`, `LOAD_BASE`, ...) stand in Machine/Params.lean and the opcode map in Decode.lean. -/

namespace Sys2Proof

/-- The four floating-point operations, the first argument of `fp_nan` (R120(e)). -/
inductive FpOp where
  | addf
  | subf
  | mulf
  | divf
  deriving DecidableEq, Repr

namespace Config

/-- Width of an instruction in bytes (R5 `ILEN`). -/
def ilen : Nat := 4

/-- Width of every data access and of the call slot in bytes (R5 `DLEN`). -/
def dlen : Nat := 8

/-- The register `call` and `return` use as the stack pointer (R5 `SP`, R12). -/
def sp : Reg := 31

/-- FREE VALUE (log entry 19): the function `fp_nan(operation, x[b], x[c])` of R120(e) and U4. The spec fixes
that it depends on the operation and the two operand patterns alone and that the result is some NaN, and no
more. It is given as the sign bit and the fraction less one, so that every NaN pattern, and nothing else, is a
possible value; it has no body, so no proof can learn which. -/
opaque fpNan : FpOp → Word → Word → Bool × Fin (4503599627370494 + 1)

end Config

end Sys2Proof
end

