-- ==== Sys2Proof/Machine/Params.lean ====
section
/-! DEFINITION. The parameters of R5 that the source leaves open, at the defaults the spec takes for them.
Every other definition uses them by name only, so a different value changes one line here. -/

namespace Sys2Proof.Machine

/-- `MEM_SIZE`: bytes of memory, 512 KiB (R5, R30; D2 from general knowledge: PRESUMED, log entry 2). -/
def memSize : Nat := 524288

/-- `LOAD_BASE`: where the image is copied and the first instruction stands (R5, R31; D3 from general
knowledge: PRESUMED, log entry 3). -/
def loadBase : Nat := 4096

/-- `SP_INIT`: the reset value of register 31, the top of memory, one past its last byte (R5, R27; D9, log
entry 9). -/
def spInit : Word := BitVec.ofNat 64 memSize

/-- `CALL_SLOT_OFFSET = -8`: the slot lies just below the address in register 31 (R5, R102; D10, log
entry 10). -/
def callSlotOffset : Word := BitVec.ofInt 64 (-8)

/-- `IMAGE_CEILING`: one past the highest address the image may reach (R5, R193; D31, log entry 32). -/
def imageCeiling : Nat := memSize

/-- `BRGT_SIGNED`: `brgt` compares signed numbers (R5, R94; D16 from general knowledge: PRESUMED, log
entry 16). -/
def brgtSigned : Bool := true

/-- What a shift by 64 or more gives: the two readings D13 names. -/
inductive ShiftOver where
  /-- the result is zero -/
  | zero
  /-- the count is taken modulo 64 -/
  | modulo64
  deriving DecidableEq, Repr

/-- `SHIFT_OVER = zero` (R5, R80; D13, log entry 13). -/
def shiftOver : ShiftOver := .zero

end Sys2Proof.Machine
end

