-- ==== Sys2Proof/Machine/Memory.lean ====
section
/-! DEFINITION. Memory (R24, R30): one flat byte space, held as the list of the bytes that differ from the
reset contents, in one canonical form, so that equal memories are equal data. -/

namespace Sys2Proof.Machine

/-- Memory: (address, byte) pairs, addresses strictly rising, no byte equal to `blankByte`. -/
abbrev Memory := List Host.Cell

/-- What an address that is not listed reads as: memory is pre-zeroed (R24, R27, R30). -/
def blankByte : Byte := 0

/-- The byte at an address. -/
def Memory.read (m : Memory) (addr : Nat) : Byte :=
  match m with
  | [] => blankByte
  | (a, v) :: rest => if a = addr then v else Memory.read rest addr

/-- A byte put in front of the entries above it; the reset value is left unlisted. -/
def Memory.cons (addr : Nat) (v : Byte) (rest : Memory) : Memory :=
  if v = blankByte then rest else (addr, v) :: rest

/-- Memory with one byte written; the canonical form is kept. -/
def Memory.write (m : Memory) (addr : Nat) (v : Byte) : Memory :=
  match m with
  | [] => Memory.cons addr v []
  | (a, u) :: rest =>
    if addr < a then Memory.cons addr v ((a, u) :: rest)
    else if addr = a then Memory.cons addr v rest
    else (a, u) :: Memory.write rest addr v

/-- The canonical form: addresses strictly rising, no entry equal to what an unlisted address reads as. -/
def Memory.wf (m : Memory) : Bool :=
  match m with
  | [] => true
  | (a, v) :: rest => v != blankByte && rest.all (fun cell => decide (a < cell.1)) && Memory.wf rest

/-- Every listed address names a byte of a memory of `size` bytes (R30). -/
def Memory.within (size : Nat) (m : Memory) : Bool := m.all fun cell => decide (cell.1 < size)

/-- The `n` bytes from an address on, in address order. -/
def Memory.readBytes (m : Memory) (addr : Nat) : Nat → List Byte
  | 0 => []
  | n + 1 => m.read addr :: Memory.readBytes m (addr + 1) n

/-- Memory with the bytes of a list written from an address on, in address order. -/
def Memory.writeBytes (m : Memory) (addr : Nat) : List Byte → Memory
  | [] => m
  | b :: bs => Memory.writeBytes (m.write addr b) (addr + 1) bs

/-- `MemRead(addr, n)` (R7, R34), for a caller that has checked the bounds. -/
def Memory.readNum (m : Memory) (addr n : Nat) : Nat := leValue (m.readBytes addr n)

/-- `MemWrite(addr, n, v)` (R7, R34), for a caller that has checked the bounds. -/
def Memory.writeNum (m : Memory) (addr n v : Nat) : Memory := m.writeBytes addr (leBytes n v)

end Sys2Proof.Machine
end

