-- ==== Sys2Proof/Machine/State.lean ====
section
/-! DEFINITION. The state of the machine: the tuple of R26 and nothing more, as plain data; the reasons a step
can stop; the state after reset (R27). -/

namespace Sys2Proof.Machine

/-- The privilege state `mode` (R17), tracked and never enforced (R147). -/
inductive Mode where
  | user
  | supervisor
  deriving DecidableEq, Repr

/-- Which of the two input failures an `IoError` records (R160 code 6). -/
inductive IoReason where
  | malformed
  | closed
  deriving DecidableEq, Repr

/-- The faults of the CORE with the information each records (R160 codes 1 to 8). Code 9, `LoadError`, is the
loader's and no fault of the CORE; see Machine/Boot.lean. -/
inductive Cause where
  | pcBounds (pc : Word)
  | dataBounds (addr : Word)
  | stackBounds (slot : Word)
  | divZero
  | fDivZero
  | ioError (reason : IoReason)
  | unknownPriv (lit : Lit)
  | illegalOpcode (w : IWord)
  deriving DecidableEq, Repr

/-- The run status (R18). -/
inductive Status where
  | running
  | halted
  | faulted (cause : Cause)
  deriving DecidableEq, Repr

/-- An item of the input stream: a line that parses as one unsigned 64-bit decimal integer, or one that does
not (R22). -/
inductive InItem where
  | value (v : Word)
  | malformed
  deriving DecidableEq, Repr

/-- What stands after the last item: the stream is closed (R22), or the environment has so far neither
supplied another item nor closed it (R148, U7). -/
inductive InEnd where
  | closed
  | waiting
  deriving DecidableEq, Repr

/-- The input stream `in_stream`: the items not yet consumed, next one first, and what follows them (R22). -/
structure InStream where
  items : List InItem
  ending : InEnd
  deriving DecidableEq, Repr

/-- The whole state of the machine (R26). -/
structure State where
  /-- the register file `x[0..31]` (R11) -/
  regs : Vector Word 32
  /-- the program counter (R15) -/
  pc : Word
  /-- the privilege state (R17) -/
  mode : Mode
  /-- the run status (R18) -/
  status : Status
  /-- memory (R24, R30) -/
  mem : Memory
  /-- the input stream (R22) -/
  inStream : InStream
  /-- the output stream `out_stream`, first value written first (R23) -/
  outStream : List Word
  deriving DecidableEq, Repr

/-- Why a step is not taken. None is a fault of the CORE: those are states, `Status.faulted` (R18, R161). -/
inductive Fault where
  /-- Raised by `step` alone, from a state whose status is `HALTED`: no step is taken from it (R18, R141).
  Safe: the spec's machine does not go on either. -/
  | halted
  /-- Raised by `step` alone, from a state whose status is `FAULTED`: no step is taken from it (R18, R162).
  Safe: the spec's machine does not go on either. -/
  | faulted (cause : Cause)
  /-- Raised by the input operation alone (`priv` literal 3 with a zero gate) when no item is there and the
  stream is not closed: the machine is stuck, with nothing changed, until the environment acts (R148, U7).
  Safe: the spec's machine takes no step there either. -/
  | inputBlocked
  deriving DecidableEq, Repr

/-- Why an instruction has no meaning. -/
inductive Refusal where
  /-- Raised by an arm of `exec` whose instruction has no meaning yet; no arm does. Safe: it stops. -/
  | notModelled (mnemonic : String)
  deriving DecidableEq, Repr

/-- The state after reset with the empty image (R27, R190, R192): registers 0, register 31 at the top of
memory, memory zero, `pc` at the load base, user mode, running, nothing written. The input stream is the
environment's (R27); here it holds no item and is closed (DESIGN CHOICE, log entry 28). -/
def State.reset : State where
  regs := (Vector.replicate 32 0).set 31 spInit
  pc := BitVec.ofNat 64 loadBase
  mode := .user
  status := .running
  mem := []
  inStream := ⟨[], .closed⟩
  outStream := []

end Sys2Proof.Machine
end

