-- ==== Sys2Proof/Machine/Operands.lean ====
section
/-! DEFINITION. Every operand form of the spec: the two readings of the literal (R53), the base plus
displacement address (R130, R133), the call slot (R102), and the bounds predicates (R33, R37). -/

namespace Sys2Proof.Machine

/-- `sext_12(L)`: the literal as a signed displacement, its bit 11 copied into the upper 52 bits (R7, R53). -/
def sext12 (lit : Lit) : Word := lit.signExtend 64

/-- `zext_12(L)`: the literal as a raw unsigned number (R7, R53). -/
def zext12 (lit : Lit) : Word := lit.setWidth 64

/-- The literal as a raw shift count 0 to 4095 (R53, R80). -/
def litCount (lit : Lit) : Nat := lit.toNat

/-- A whole register as an unsigned shift count, not reduced (R80). -/
def regCount (v : Word) : Nat := v.toNat

/-- The effective address of `mov_ld` and `mov_st`: the sum modulo 2^64 (R130, R133). -/
def dataAddress (base : Word) (lit : Lit) : Word := base + sext12 lit

/-- The slot of `call` and `return`, the same for both, from the value of register 31 (R37, R102). -/
def slotAddress (sp : Word) : Word := sp + callSlotOffset

/-- `InBounds(addr, n)`: all `n` bytes from `addr` on are bytes of memory, without wrap-around (R33). -/
abbrev inBounds (addr : Word) (n : Nat) : Prop := addr.toNat + n ≤ memSize

/-- The slot lies wholly inside `[LOAD_BASE, MEM_SIZE)` (R37; D11, log entry 11). -/
abbrev slotInBounds (slot : Word) : Prop := loadBase ≤ slot.toNat ∧ inBounds slot Config.dlen

end Sys2Proof.Machine
end

