-- ==== Sys2Proof/Machine/Flags.lean ====
section
/-! DEFINITION. The machine has no flags, condition codes or predicates (R19), so there is no flag to compute.
What stands in their place are the tests of register values by the conditional branches and the gates. -/

namespace Sys2Proof.Machine

/-- Any of the 64 bits is set: the test of `brnz` (R93) and of the output gate (R145). -/
def isNonZero (v : Word) : Bool := v != 0

/-- All 64 bits are zero: the test of the input gate (R144) and of the divisor of `div` (R115). -/
def isZero (v : Word) : Bool := v == 0

/-- The strict comparison of `brgt` (R94): of two's-complement numbers, `BRGT_SIGNED` being true (D16, log
entry 16). -/
def isGreater (x y : Word) : Bool :=
  if brgtSigned then decide (y.toInt < x.toInt) else decide (y.toNat < x.toNat)

end Sys2Proof.Machine
end

