-- ==== Sys2Proof/Machine/Ops.lean ====
section
/-! DEFINITION. The named operations every meaning is made of: reading and writing registers and memory, the
default advance, raising a fault (the CORE's one way of taking an exception), the streams. -/

namespace Sys2Proof.Machine

/-- What an instruction or a step answers. -/
abbrev Result := Host.Outcome State Fault Refusal

/-- `x[i]` (R7); no register is hardwired (R12). -/
def State.reg (s : State) (i : Reg) : Word := s.regs[i]

/-- `x[i] <- v` (R7). -/
def State.setReg (s : State) (i : Reg) (v : Word) : State := { s with regs := s.regs.set i v }

/-- `pc <- t` (R7). -/
def State.setPc (s : State) (t : Word) : State := { s with pc := t }

/-- `mode <- m` (R142, R143). -/
def State.setMode (s : State) (m : Mode) : State := { s with mode := m }

/-- `status <- st` (R18). -/
def State.setStatus (s : State) (st : Status) : State := { s with status := st }

/-- Memory replaced. -/
def State.setMem (s : State) (m : Memory) : State := { s with mem := m }

/-- The input stream replaced. -/
def State.setIn (s : State) (i : InStream) : State := { s with inStream := i }

/-- The output stream replaced. -/
def State.setOut (s : State) (vs : List Word) : State := { s with outStream := vs }

/-- `Out(v)`: the value appended to the output stream (R7, R23). -/
def State.out (s : State) (v : Word) : State := s.setOut (s.outStream ++ [v])

/-- The address of the next sequential instruction, modulo 2^64 (R8, R16). -/
def State.nextPc (s : State) : Word := s.pc + BitVec.ofNat 64 Config.ilen

/-- The default sequel `pc <- (pc + 4) mod 2^64` (R8). -/
def State.advance (s : State) : State := s.setPc s.nextPc

/-- `MemRead(addr, 8)` as a register value (R32, R34). -/
def State.load8 (s : State) (addr : Word) : Word := BitVec.ofNat 64 (s.mem.readNum addr.toNat Config.dlen)

/-- `MemWrite(addr, 8, v)` (R32, R34). -/
def State.store8 (s : State) (addr v : Word) : State :=
  s.setMem (s.mem.writeNum addr.toNat Config.dlen v.toNat)

/-- `MemRead(addr, 4)` as an instruction word (R32, R50). -/
def State.load4 (s : State) (addr : Word) : IWord := BitVec.ofNat 32 (s.mem.readNum addr.toNat Config.ilen)

/-- TAKING AN EXCEPTION, `raise <Fault>` (R7, R161): the instruction is abandoned, `status` becomes
`FAULTED(cause)` and nothing else changes. Control goes nowhere: no vector, no saved pc, no mode change
(R169). There is no return from it beside it: no instruction leaves `FAULTED` (R162). -/
def raise (cause : Cause) (s : State) : Result := .next (s.setStatus (.faulted cause))

/-- The end of an instruction that writes register `a`: the result, then the default advance (R8, R152(a)). -/
def writeBack (s : State) (a : Reg) (v : Word) : Result := .next (s.setReg a v).advance

/-- The end of an instruction that writes no register: the default advance (R8, R152(a)). -/
def proceed (s : State) : Result := .next s.advance

/-- The end of a control transfer: `pc` is the target, unchecked, and is not advanced (R95, R152(b)). -/
def jump (s : State) (target : Word) : Result := .next (s.setPc target)

/-- What `In()` meets at the front of the input stream. -/
inductive InRead where
  | value (v : Word) (rest : InStream)
  | malformed (rest : InStream)
  | closed
  | blocked
  deriving DecidableEq, Repr

/-- `In()`: the front item removed, or `Closed`, or nothing there yet (R7, R22, R148). -/
def InStream.take (i : InStream) : InRead :=
  match i.items with
  | .value v :: rest => .value v ⟨rest, i.ending⟩
  | .malformed :: rest => .malformed ⟨rest, i.ending⟩
  | [] => match i.ending with
    | .closed => .closed
    | .waiting => .blocked

/-- Halting: `status <- HALTED`, `pc` kept (R141). -/
def haltMachine (s : State) : Result := .next (s.setStatus .halted)

/-- A mode switch: the mode written whatever it was, then the default advance (R142, R143). -/
def switchMode (m : Mode) (s : State) : Result := proceed (s.setMode m)

/-- The gated input (R144): with `x[b] = 0` the next item goes to `x[a]`; a malformed item is consumed and
faults; a closed stream faults; with no item there the machine is stuck (R148). -/
def inputOp (a b : Reg) (s : State) : Result :=
  if isZero (s.reg b) then
    match s.inStream.take with
    | .value v rest => writeBack (s.setIn rest) a v
    | .malformed rest => raise (.ioError .malformed) (s.setIn rest)
    | .closed => raise (.ioError .closed) s
    | .blocked => .fault .inputBlocked
  else proceed s

/-- The gated output (R145): with `x[a]` non-zero the value of `x[b]` is appended. -/
def outputOp (a b : Reg) (s : State) : Result :=
  if isNonZero (s.reg a) then proceed (s.out (s.reg b)) else proceed s

end Sys2Proof.Machine
end

