-- ==== Sys2Proof/Machine/Bitwise.lean ====
section
/-! DEFINITION. The meanings of and, or, xor, not (R70 to R74). -/

namespace Sys2Proof.Machine

/-- `and ra, rb, rc` (R70). -/
def execAnd (a b c : Reg) (s : State) : Result := writeBack s a (s.reg b &&& s.reg c)

/-- `or ra, rb, rc` (R71). -/
def execOr (a b c : Reg) (s : State) : Result := writeBack s a (s.reg b ||| s.reg c)

/-- `xor ra, rb, rc` (R72). -/
def execXor (a b c : Reg) (s : State) : Result := writeBack s a (s.reg b ^^^ s.reg c)

/-- `not ra, rb` (R73). -/
def execNot (a b : Reg) (s : State) : Result := writeBack s a (~~~ s.reg b)

end Sys2Proof.Machine
end

