-- ==== Sys2Proof/Machine/Branches.lean ====
section
/-! DEFINITION. The meanings of br, brr1, brr2, brnz, brgt (R90 to R95). A target is checked by the next fetch,
not by the branch (R95). -/

namespace Sys2Proof.Machine

/-- `br ra` (R90). -/
def execBr (a : Reg) (s : State) : Result := jump s (s.reg a)

/-- `brr1 ra`: relative to the branch itself (R91). -/
def execBrr1 (a : Reg) (s : State) : Result := jump s (s.pc + s.reg a)

/-- `brr2 L`: relative to the branch itself (R92). -/
def execBrr2 (lit : Lit) (s : State) : Result := jump s (s.pc + sext12 lit)

/-- `brnz ra, rb` (R93). -/
def execBrnz (a b : Reg) (s : State) : Result :=
  if isNonZero (s.reg b) then jump s (s.reg a) else proceed s

/-- `brgt ra, rb, rc` (R94). -/
def execBrgt (a b c : Reg) (s : State) : Result :=
  if isGreater (s.reg b) (s.reg c) then jump s (s.reg a) else proceed s

end Sys2Proof.Machine
end

