-- ==== Sys2Proof/Machine/CallReturn.lean ====
section
/-! DEFINITION. The meanings of call and return (R100 to R105). Neither changes register 31 (R102; D10, log
entry 10). -/

namespace Sys2Proof.Machine

/-- The slot of this state's stack pointer (R102). -/
def State.slot (s : State) : Word := slotAddress (s.reg Config.sp)

/-- `call ra` (R100): the return address into the slot, then to the target, which was read before. -/
def execCall (a : Reg) (s : State) : Result :=
  if slotInBounds s.slot then jump (s.store8 s.slot s.nextPc) (s.reg a)
  else raise (.stackBounds s.slot) s

/-- `return` (R101): the eight bytes of the slot become the pc. -/
def execReturn (s : State) : Result :=
  if slotInBounds s.slot then jump s (s.load8 s.slot)
  else raise (.stackBounds s.slot) s

end Sys2Proof.Machine
end

