-- ==== Sys2Proof/Machine/DataMovement.lean ====
section
/-! DEFINITION. The meanings of mov_ld, mov_rr, mov_hi, mov_st (R130 to R135). No access needs alignment (R35;
D5, log entry 5); the lower limit of a data access is 0 (R36; D8, log entry 8). -/

namespace Sys2Proof.Machine

/-- `mov_ld ra, rb, L` (R130). -/
def execMovLd (a b : Reg) (lit : Lit) (s : State) : Result :=
  let ea := dataAddress (s.reg b) lit
  if inBounds ea Config.dlen then writeBack s a (s.load8 ea) else raise (.dataBounds ea) s

/-- `mov_rr ra, rb` (R131). -/
def execMovRr (a b : Reg) (s : State) : Result := writeBack s a (s.reg b)

/-- Bits 63:52 replaced by the raw literal, bits 51:0 kept (R132). -/
def replaceHigh (v : Word) (lit : Lit) : Word := lit ++ v.setWidth 52

/-- `mov_hi ra, L` (R132). -/
def execMovHi (a : Reg) (lit : Lit) (s : State) : Result := writeBack s a (replaceHigh (s.reg a) lit)

/-- `mov_st ra, rb, L` (R133): the r1 field is the base, the r2 field the value. -/
def execMovSt (a b : Reg) (lit : Lit) (s : State) : Result :=
  let ea := dataAddress (s.reg a) lit
  if inBounds ea Config.dlen then proceed (s.store8 ea (s.reg b)) else raise (.dataBounds ea) s

end Sys2Proof.Machine
end

