-- ==== Sys2Proof/Machine/Binary64.lean ====
section
/-! DEFINITION. IEEE-754 binary64 arithmetic on register patterns (R120): a pattern is read as an exact number,
the operation is done exactly, and the exact result is rounded once, to nearest, ties to even. Every finite
binary64 number is a whole multiple of the smallest subnormal 2^-1074, the UNIT; magnitudes are counted in it.
The layout and the special results are PRESUMED (the spec marks them general knowledge), the rounding mode is
D18: log entry 18. -/

namespace Sys2Proof.Machine

/-- How many units make 1.0. -/
def unitsPerOne : Nat := 2 ^ 1074

/-- The biased exponent field, bits 62:52. -/
def fpExp (w : Word) : Nat := (w.extractLsb' 52 11).toNat

/-- The fraction field, bits 51:0. -/
def fpFrac (w : Word) : Nat := (w.extractLsb' 0 52).toNat

/-- The number a pattern stands for, `f(v)` of R6; a finite one by its sign and its magnitude in units. -/
inductive FpVal where
  | nan
  | inf (neg : Bool)
  | fin (neg : Bool) (mag : Nat)
  deriving DecidableEq, Repr

/-- The magnitude in units of a finite pattern: subnormal when the exponent is 0, else with the hidden bit. -/
def fpMag (w : Word) : Nat :=
  if fpExp w = 0 then fpFrac w else (2 ^ 52 + fpFrac w) * 2 ^ (fpExp w - 1)

/-- `f(v)` (R6, R120). -/
def fpUnpack (w : Word) : FpVal :=
  if fpExp w = 2047 then (if fpFrac w = 0 then .inf w.msb else .nan)
  else .fin w.msb (fpMag w)

/-- A sign before 63 bits. -/
def fpPattern (neg : Bool) (low : Nat) : Word := BitVec.ofBool neg ++ BitVec.ofNat 63 low

/-- The low 63 bits of an infinity: exponent 0x7FF, fraction 0. -/
def fpInfLow : Nat := 2047 * 2 ^ 52

/-- An infinity of a sign (R120(c)). -/
def fpInf (neg : Bool) : Word := fpPattern neg fpInfLow

/-- The exact result of an operation: a NaN, an infinity, or the number `num / den` units with a sign (the sign
stands also where the number is zero, R120(f)). -/
inductive FpExact where
  | nan
  | inf (neg : Bool)
  | ratio (neg : Bool) (num den : Nat)
  deriving DecidableEq, Repr

/-- `num / den` rounded to a whole number, to nearest, ties to even. -/
def divNearestEven (num den : Nat) : Nat :=
  let q := num / den
  let r := num % den
  if 2 * r < den then q
  else if den < 2 * r then q + 1
  else q + q % 2

/-- The low 63 bits of `num / den` units rounded to nearest, ties to even (R120(a)): the last place counts
`2^k` units, `k` chosen so that the significand has 53 bits, or 0 in the subnormal range; a significand that
rounds up to `2^53` carries into the exponent; from 2^1024 on the result is an infinity (R120(c)). -/
def fpRoundLow (num den : Nat) : Nat :=
  let k := Nat.log2 (num / den) - 52
  min (k * 2 ^ 52 + divNearestEven num (den * 2 ^ k)) fpInfLow

/-- `fbits(round_RNE(...))` (R121 to R124); none for a NaN, whose pattern is free. -/
def fpRound : FpExact → Option Word
  | .nan => none
  | .inf neg => some (fpInf neg)
  | .ratio neg num den => some (fpPattern neg (fpRoundLow num den))

/-- A finite number as a signed count of units. -/
def fpSigned (neg : Bool) (mag : Nat) : Int := if neg then -(mag : Int) else (mag : Int)

/-- The number with its sign flipped. -/
def FpVal.neg : FpVal → FpVal
  | .nan => .nan
  | .inf n => .inf (!n)
  | .fin n m => .fin (!n) m

/-- The exact sum; an exact zero is `+0` but for `(-0) + (-0)` (R120(c), (f)). -/
def fpAdd (x y : FpVal) : FpExact :=
  match x, y with
  | .nan, _ => .nan
  | _, .nan => .nan
  | .inf n, .inf m => if n = m then .inf n else .nan
  | .inf n, .fin _ _ => .inf n
  | .fin _ _, .inf m => .inf m
  | .fin n p, .fin m q =>
    let z := fpSigned n p + fpSigned m q
    if z = 0 then .ratio (n && m) 0 1 else .ratio (decide (z < 0)) z.natAbs 1

/-- The exact difference: `x + (-y)` (R122). -/
def fpSub (x y : FpVal) : FpExact := fpAdd x y.neg

/-- The exact product; the sign is the exclusive-or of the signs (R120(c), (f)). -/
def fpMul (x y : FpVal) : FpExact :=
  match x, y with
  | .nan, _ => .nan
  | _, .nan => .nan
  | .inf n, .inf m => .inf (n != m)
  | .inf n, .fin m q => if q = 0 then .nan else .inf (n != m)
  | .fin n p, .inf m => if p = 0 then .nan else .inf (n != m)
  | .fin n p, .fin m q => .ratio (n != m) (p * q) unitsPerOne

/-- The exact quotient; the sign is the exclusive-or of the signs (R120(c), (f)). `divf` faults on a zero
divisor before it comes here (R124); for totality the two cases answer as IEEE-754 does. -/
def fpDiv (x y : FpVal) : FpExact :=
  match x, y with
  | .nan, _ => .nan
  | _, .nan => .nan
  | .inf _, .inf _ => .nan
  | .inf n, .fin m _ => .inf (n != m)
  | .fin n _, .inf m => .ratio (n != m) 0 1
  | .fin n p, .fin m q =>
    if q = 0 then (if p = 0 then .nan else .inf (n != m))
    else .ratio (n != m) (p * unitsPerOne) q

/-- The exact result of one of the four operations. -/
def fpExact (op : FpOp) (x y : FpVal) : FpExact :=
  match op with
  | .addf => fpAdd x y
  | .subf => fpSub x y
  | .mulf => fpMul x y
  | .divf => fpDiv x y

/-- The pattern of `fp_nan(op, x, y)`: exponent 0x7FF and a fraction that is not 0, otherwise free (R120(e),
U4; log entry 19). -/
def fpNanPattern (op : FpOp) (x y : Word) : Word :=
  fpPattern (Config.fpNan op x y).1 (fpInfLow + (Config.fpNan op x y).2.val + 1)

/-- The result pattern of an operation on two patterns (R120 to R124). -/
def fpResult (op : FpOp) (x y : Word) : Word :=
  match fpRound (fpExact op (fpUnpack x) (fpUnpack y)) with
  | some r => r
  | none => fpNanPattern op x y

/-- `f(v) = 0.0`, either sign (R124, R125; D19, log entry 20). -/
def fpIsZero (w : Word) : Bool :=
  match fpUnpack w with
  | .fin _ mag => mag == 0
  | .inf _ => false
  | .nan => false

/-- The pattern is some NaN: exponent 0x7FF, fraction not 0 (R120). -/
def fpIsNan (w : Word) : Bool := fpUnpack w == .nan

end Sys2Proof.Machine
end

