-- ==== Sys2Proof/Machine/FloatArith.lean ====
section
/-! DEFINITION. The meanings of addf, subf, mulf, divf (R120 to R126). -/

namespace Sys2Proof.Machine

/-- `addf ra, rb, rc` (R121). -/
def execAddf (a b c : Reg) (s : State) : Result := writeBack s a (fpResult .addf (s.reg b) (s.reg c))

/-- `subf ra, rb, rc` (R122). -/
def execSubf (a b c : Reg) (s : State) : Result := writeBack s a (fpResult .subf (s.reg b) (s.reg c))

/-- `mulf ra, rb, rc` (R123). -/
def execMulf (a b c : Reg) (s : State) : Result := writeBack s a (fpResult .mulf (s.reg b) (s.reg c))

/-- `divf ra, rb, rc` (R124): a zero divisor of either sign faults, whatever the dividend (R125). -/
def execDivf (a b c : Reg) (s : State) : Result :=
  if fpIsZero (s.reg c) then raise .fDivZero s
  else writeBack s a (fpResult .divf (s.reg b) (s.reg c))

end Sys2Proof.Machine
end

