-- ==== Sys2Proof/Machine/IntegerArith.lean ====
section
/-! DEFINITION. The meanings of add, addi, sub, subi, mul, div (R110 to R117): all results modulo 2^64. -/

namespace Sys2Proof.Machine

/-- The quotient of the signed readings, rounded toward zero, modulo 2^64 (R115; the wrap of `-2^63 / -1` is
D17, log entry 17). The caller has checked that the divisor is not 0. -/
def signedQuotient (x y : Word) : Word := BitVec.ofInt 64 (x.toInt.tdiv y.toInt)

/-- `add ra, rb, rc` (R110). -/
def execAdd (a b c : Reg) (s : State) : Result := writeBack s a (s.reg b + s.reg c)

/-- `addi ra, L`: in place, the literal unsigned (R111; D14, log entry 14). -/
def execAddi (a : Reg) (lit : Lit) (s : State) : Result := writeBack s a (s.reg a + zext12 lit)

/-- `sub ra, rb, rc` (R112; operand order D15, log entry 15). -/
def execSub (a b c : Reg) (s : State) : Result := writeBack s a (s.reg b - s.reg c)

/-- `subi ra, L`: in place, the literal unsigned (R113; D14, log entry 14). -/
def execSubi (a : Reg) (lit : Lit) (s : State) : Result := writeBack s a (s.reg a - zext12 lit)

/-- `mul ra, rb, rc`: the low half of the product (R114). -/
def execMul (a b c : Reg) (s : State) : Result := writeBack s a (s.reg b * s.reg c)

/-- `div ra, rb, rc` (R115): a zero divisor faults before any write. -/
def execDiv (a b c : Reg) (s : State) : Result :=
  if isZero (s.reg c) then raise .divZero s
  else writeBack s a (signedQuotient (s.reg b) (s.reg c))

end Sys2Proof.Machine
end

