-- ==== Sys2Proof/Machine/Priv.lean ====
section
/-! DEFINITION. The meanings of the priv opcode and its five sub-operations (R140 to R149). None depends on the
mode (R147; D32, log entry 33). -/

namespace Sys2Proof.Machine

/-- `priv _, _, _, 0` (R141). -/
def execPrivHalt (s : State) : Result := haltMachine s

/-- `priv _, _, _, 1` (R142). -/
def execPrivEnterSupervisor (s : State) : Result := switchMode .supervisor s

/-- `priv _, _, _, 2` (R143). -/
def execPrivEnterUser (s : State) : Result := switchMode .user s

/-- `priv ra, rb, _, 3` (R144). -/
def execPrivInput (a b : Reg) (s : State) : Result := inputOp a b s

/-- `priv ra, rb, _, 4` (R145). -/
def execPrivOutput (a b : Reg) (s : State) : Result := outputOp a b s

/-- `priv ra, rb, rc, L` for any literal, the case analysis of R140: 0 to 4 as in the five rows above, any
other literal is unknown (R146). The decoder gives this term for the unknown literals alone. -/
def execPriv (a b : Reg) (lit : Lit) (s : State) : Result :=
  if lit = 0 then haltMachine s
  else if lit = 1 then switchMode .supervisor s
  else if lit = 2 then switchMode .user s
  else if lit = 3 then inputOp a b s
  else if lit = 4 then outputOp a b s
  else raise (.unknownPriv lit) s

end Sys2Proof.Machine
end

