-- ==== Sys2Proof/Machine/Shifts.lean ====
section
/-! DEFINITION. The shift functions (R80) and the meanings of shftr, shftri, shftl, shftli (R81 to R85). -/

namespace Sys2Proof.Machine

/-- `shr(v, n)`: logical, zero-filling (R80; D12, log entry 12); 0 for a count of 64 or more (D13, log
entry 13). -/
def shr (v : Word) (n : Nat) : Word :=
  if n < 64 then v >>> n
  else match shiftOver with
    | .zero => 0
    | .modulo64 => v >>> (n % 64)

/-- `shl(v, n)`: bits shifted past 63 are lost (R80); 0 for a count of 64 or more (D13, log entry 13). -/
def shl (v : Word) (n : Nat) : Word :=
  if n < 64 then v <<< n
  else match shiftOver with
    | .zero => 0
    | .modulo64 => v <<< (n % 64)

/-- `shftr ra, rb, rc` (R81). -/
def execShftr (a b c : Reg) (s : State) : Result := writeBack s a (shr (s.reg b) (regCount (s.reg c)))

/-- `shftri ra, L` (R82). -/
def execShftri (a : Reg) (lit : Lit) (s : State) : Result := writeBack s a (shr (s.reg a) (litCount lit))

/-- `shftl ra, rb, rc` (R83). -/
def execShftl (a b c : Reg) (s : State) : Result := writeBack s a (shl (s.reg b) (regCount (s.reg c)))

/-- `shftli ra, L` (R84). -/
def execShftli (a : Reg) (lit : Lit) (s : State) : Result := writeBack s a (shl (s.reg a) (litCount lit))

end Sys2Proof.Machine
end

