-- ==== Sys2Proof/Syntax.lean ====
section
/-! DEFINITION. The instructions: the 30 operations the dispatch table selects (R55, R56) and the instruction
terms, one constructor for each row of spec/opcode_table.json, with the fields R54 says the row uses. -/

namespace Sys2Proof

/-- The 30 operations of R55, by name; which number selects which is `opmap` in Decode.lean. -/
inductive Op where
  | and | or | xor | not
  | shftr | shftri | shftl | shftli
  | br | brr1 | brr2 | brnz | call | ret | brgt | priv
  | movLd | movRr | movHi | movSt
  | addf | subf | mulf | divf
  | add | addi | sub | subi | mul | div
  deriving DecidableEq, Repr

/-- An instruction: its operation and the fields it uses, in the order `a`, `b`, `c`, `L` of R54. A field the
instruction ignores is no part of the term (R54, R59). `priv` is one opcode with five sub-operations, which are
rows of their own in the table and take precedence; `priv a b lit` is the row of the remaining literals
(R58, R140). -/
inductive Instr where
  | and (a b c : Reg)
  | or (a b c : Reg)
  | xor (a b c : Reg)
  | not (a b : Reg)
  | shftr (a b c : Reg)
  | shftri (a : Reg) (lit : Lit)
  | shftl (a b c : Reg)
  | shftli (a : Reg) (lit : Lit)
  | br (a : Reg)
  | brr1 (a : Reg)
  | brr2 (lit : Lit)
  | brnz (a b : Reg)
  | call (a : Reg)
  | ret
  | brgt (a b c : Reg)
  | priv (a b : Reg) (lit : Lit)
  | movLd (a b : Reg) (lit : Lit)
  | movRr (a b : Reg)
  | movHi (a : Reg) (lit : Lit)
  | movSt (a b : Reg) (lit : Lit)
  | addf (a b c : Reg)
  | subf (a b c : Reg)
  | mulf (a b c : Reg)
  | divf (a b c : Reg)
  | add (a b c : Reg)
  | addi (a : Reg) (lit : Lit)
  | sub (a b c : Reg)
  | subi (a : Reg) (lit : Lit)
  | mul (a b c : Reg)
  | div (a b c : Reg)
  | privHalt
  | privEnterSupervisor
  | privEnterUser
  | privInput (a b : Reg)
  | privOutput (a b : Reg)
  deriving DecidableEq, Repr

end Sys2Proof
end

