-- ==== Sys2Proof/Machine/Dispatch.lean ====
section
/-! DEFINITION. The dispatch table: one handler for each instruction (R55, R152). -/

namespace Sys2Proof.Machine

/-- The effect of one instruction on a state (R152). -/
def exec (i : Instr) (s : State) : Host.Outcome State Fault Refusal :=
  match i with
  | .and a b c => Sys2Proof.Machine.execAnd a b c s
  | .or a b c => Sys2Proof.Machine.execOr a b c s
  | .xor a b c => Sys2Proof.Machine.execXor a b c s
  | .not a b => Sys2Proof.Machine.execNot a b s
  | .shftr a b c => Sys2Proof.Machine.execShftr a b c s
  | .shftri a lit => Sys2Proof.Machine.execShftri a lit s
  | .shftl a b c => Sys2Proof.Machine.execShftl a b c s
  | .shftli a lit => Sys2Proof.Machine.execShftli a lit s
  | .br a => Sys2Proof.Machine.execBr a s
  | .brr1 a => Sys2Proof.Machine.execBrr1 a s
  | .brr2 lit => Sys2Proof.Machine.execBrr2 lit s
  | .brnz a b => Sys2Proof.Machine.execBrnz a b s
  | .call a => Sys2Proof.Machine.execCall a s
  | .ret => Sys2Proof.Machine.execReturn s
  | .brgt a b c => Sys2Proof.Machine.execBrgt a b c s
  | .priv a b lit => Sys2Proof.Machine.execPriv a b lit s
  | .movLd a b lit => Sys2Proof.Machine.execMovLd a b lit s
  | .movRr a b => Sys2Proof.Machine.execMovRr a b s
  | .movHi a lit => Sys2Proof.Machine.execMovHi a lit s
  | .movSt a b lit => Sys2Proof.Machine.execMovSt a b lit s
  | .addf a b c => Sys2Proof.Machine.execAddf a b c s
  | .subf a b c => Sys2Proof.Machine.execSubf a b c s
  | .mulf a b c => Sys2Proof.Machine.execMulf a b c s
  | .divf a b c => Sys2Proof.Machine.execDivf a b c s
  | .add a b c => Sys2Proof.Machine.execAdd a b c s
  | .addi a lit => Sys2Proof.Machine.execAddi a lit s
  | .sub a b c => Sys2Proof.Machine.execSub a b c s
  | .subi a lit => Sys2Proof.Machine.execSubi a lit s
  | .mul a b c => Sys2Proof.Machine.execMul a b c s
  | .div a b c => Sys2Proof.Machine.execDiv a b c s
  | .privHalt => Sys2Proof.Machine.execPrivHalt s
  | .privEnterSupervisor => Sys2Proof.Machine.execPrivEnterSupervisor s
  | .privEnterUser => Sys2Proof.Machine.execPrivEnterUser s
  | .privInput a b => Sys2Proof.Machine.execPrivInput a b s
  | .privOutput a b => Sys2Proof.Machine.execPrivOutput a b s

end Sys2Proof.Machine
end

