-- ==== Sys2Proof/WellFormed.lean ====
section
/-! DEFINITION. Which instruction terms stand for a word. Register numbers and literals are bounded by their
types and no field value is illegal (R52, R59), so one check remains: the literals 0 to 4 of `priv` are rows of
their own (R58), so the general row holds the others. -/

namespace Sys2Proof

/-- The literal of the general `priv` row is one of 5 to 4095 (R58, R146). -/
def Lit.isUnknownPriv (lit : Lit) : Bool := decide (5 ≤ lit.toNat)

/-- The instruction is the term the decoder gives for some word. -/
def Instr.wf (i : Instr) : Bool :=
  match i with
  | .priv _ _ lit => lit.isUnknownPriv
  | .and _ _ _ => true
  | .or _ _ _ => true
  | .xor _ _ _ => true
  | .not _ _ => true
  | .shftr _ _ _ => true
  | .shftri _ _ => true
  | .shftl _ _ _ => true
  | .shftli _ _ => true
  | .br _ => true
  | .brr1 _ => true
  | .brr2 _ => true
  | .brnz _ _ => true
  | .call _ => true
  | .ret => true
  | .brgt _ _ _ => true
  | .movLd _ _ _ => true
  | .movRr _ _ => true
  | .movHi _ _ => true
  | .movSt _ _ _ => true
  | .addf _ _ _ => true
  | .subf _ _ _ => true
  | .mulf _ _ _ => true
  | .divf _ _ _ => true
  | .add _ _ _ => true
  | .addi _ _ => true
  | .sub _ _ _ => true
  | .subi _ _ => true
  | .mul _ _ _ => true
  | .div _ _ _ => true
  | .privHalt => true
  | .privEnterSupervisor => true
  | .privEnterUser => true
  | .privInput _ _ => true
  | .privOutput _ _ => true

end Sys2Proof
end

