-- ==== Sys2Proof/Decode.lean ====
section
/-! DEFINITION. The fixed field layout (R51, R52), the opcode map (R55), the decoder, total on every word and
every list of bytes, and the encoder (R63). -/

namespace Sys2Proof

/-- The five fields of an instruction word (R51). -/
structure Fields where
  op : BitVec 5
  a : BitVec 5
  b : BitVec 5
  c : BitVec 5
  lit : BitVec 12
  deriving DecidableEq, Repr

/-- `op = w[31:27]`, `a = w[26:22]`, `b = w[21:17]`, `c = w[16:12]`, `L = w[11:0]` (R52). -/
def decodeFields (w : IWord) : Fields where
  op := w.extractLsb' 27 5
  a := w.extractLsb' 22 5
  b := w.extractLsb' 17 5
  c := w.extractLsb' 12 5
  lit := w.extractLsb' 0 12

/-- The inverse: `op << 27 | a << 22 | b << 17 | c << 12 | L` (R63), the fields side by side. -/
def encodeFields (f : Fields) : IWord := f.op ++ f.a ++ f.b ++ f.c ++ f.lit

/-- The opcode map OPMAP: the operation at position `n` is the one that opcode number `n` selects (R55).
The numbers are the spec's decision D1, from general knowledge (PRESUMED, log entry 1). -/
def opmap : List Op :=
  [.and, .or, .xor, .not, .shftr, .shftri, .shftl, .shftli,
   .br, .brr1, .brr2, .brnz, .call, .ret, .brgt, .priv,
   .movLd, .movRr, .movHi, .movSt, .addf, .subf, .mulf, .divf,
   .add, .addi, .sub, .subi, .mul, .div]

/-- The operation an opcode number selects; none for 30 and 31, which select no handler (R57). -/
def opOfNumber (n : Nat) : Option Op := opmap[n]?

/-- The opcode number that selects an operation (R55). -/
def numberOfOp (o : Op) : Nat := opmap.idxOf o

/-- The further decoding of `priv` by its whole 12-bit literal (R58, R140; D33, log entry 34). -/
def privOf (a b : Reg) (lit : Lit) : Instr :=
  if lit = 0 then .privHalt
  else if lit = 1 then .privEnterSupervisor
  else if lit = 2 then .privEnterUser
  else if lit = 3 then .privInput a b
  else if lit = 4 then .privOutput a b
  else .priv a b lit

/-- The instruction of an operation and the fields: each takes the fields R54 lists for it and ignores the
others (R54, D21, log entry 22). -/
def instrOf (o : Op) (f : Fields) : Instr :=
  let a : Reg := f.a.toFin
  let b : Reg := f.b.toFin
  let c : Reg := f.c.toFin
  match o with
  | .and => .and a b c
  | .or => .or a b c
  | .xor => .xor a b c
  | .not => .not a b
  | .shftr => .shftr a b c
  | .shftri => .shftri a f.lit
  | .shftl => .shftl a b c
  | .shftli => .shftli a f.lit
  | .br => .br a
  | .brr1 => .brr1 a
  | .brr2 => .brr2 f.lit
  | .brnz => .brnz a b
  | .call => .call a
  | .ret => .ret
  | .brgt => .brgt a b c
  | .priv => privOf a b f.lit
  | .movLd => .movLd a b f.lit
  | .movRr => .movRr a b
  | .movHi => .movHi a f.lit
  | .movSt => .movSt a b f.lit
  | .addf => .addf a b c
  | .subf => .subf a b c
  | .mulf => .mulf a b c
  | .divf => .divf a b c
  | .add => .add a b c
  | .addi => .addi a f.lit
  | .sub => .sub a b c
  | .subi => .subi a f.lit
  | .mul => .mul a b c
  | .div => .div a b c

/-- The instruction a word stands for: `some` exactly when its opcode number is in the table; `none` names the
one rejection a word can have, an opcode outside the table (R57, R59, R153). -/
def decodeWord (w : IWord) : Option Instr :=
  (opOfNumber (decodeFields w).op.toNat).map fun o => instrOf o (decodeFields w)

/-- What decoding a list of bytes answers: an instruction, or a rejection by name. -/
inductive Decoded where
  | ok (i : Instr)
  /-- The opcode of the word is 30 or 31 (R57). -/
  | illegalOpcode (w : IWord)
  /-- Fewer than the four bytes of one instruction word (R50). -/
  | truncated
  deriving DecidableEq, Repr

/-- The instruction at the front of a list of bytes as they lie in memory, lowest address first (R34, R50). -/
def decode (bs : List Byte) : Decoded :=
  match bs with
  | b0 :: b1 :: b2 :: b3 :: _ =>
    let w : IWord := BitVec.ofNat 32 (Machine.leValue [b0, b1, b2, b3])
    match decodeWord w with
    | some i => .ok i
    | none => .illegalOpcode w
  | _ => .truncated

/-- The instruction the decoder reads from a table row's word of `nbits` bits, the bits above them zero. -/
def decodeTableWord (nbits w : Nat) : Option Instr :=
  match decode (Machine.leBytes 4 (w % 2 ^ nbits)) with
  | .ok i => some i
  | .illegalOpcode _ => none
  | .truncated => none

/-- The opcode field of an operation. -/
def opBits (o : Op) : BitVec 5 := BitVec.ofNat 5 (numberOfOp o)

/-- The fields of a three-register form; the literal is ignored and encoded 0 (R54, R61). -/
def fields3 (o : Op) (a b c : Reg) : Fields := ⟨opBits o, .ofFin a, .ofFin b, .ofFin c, 0⟩

/-- The fields of a form that uses `a`, `b` and the literal; `c` is ignored and encoded 0 (R54, R61). -/
def fieldsLit (o : Op) (a b : Reg) (lit : Lit) : Fields := ⟨opBits o, .ofFin a, .ofFin b, 0, lit⟩

/-- The fields of an instruction, every ignored field 0 (R54, R61). -/
def fieldsOf (i : Instr) : Fields :=
  match i with
  | .and a b c => fields3 .and a b c
  | .or a b c => fields3 .or a b c
  | .xor a b c => fields3 .xor a b c
  | .not a b => fields3 .not a b 0
  | .shftr a b c => fields3 .shftr a b c
  | .shftri a lit => fieldsLit .shftri a 0 lit
  | .shftl a b c => fields3 .shftl a b c
  | .shftli a lit => fieldsLit .shftli a 0 lit
  | .br a => fields3 .br a 0 0
  | .brr1 a => fields3 .brr1 a 0 0
  | .brr2 lit => fieldsLit .brr2 0 0 lit
  | .brnz a b => fields3 .brnz a b 0
  | .call a => fields3 .call a 0 0
  | .ret => fields3 .ret 0 0 0
  | .brgt a b c => fields3 .brgt a b c
  | .priv a b lit => fieldsLit .priv a b lit
  | .movLd a b lit => fieldsLit .movLd a b lit
  | .movRr a b => fields3 .movRr a b 0
  | .movHi a lit => fieldsLit .movHi a 0 lit
  | .movSt a b lit => fieldsLit .movSt a b lit
  | .addf a b c => fields3 .addf a b c
  | .subf a b c => fields3 .subf a b c
  | .mulf a b c => fields3 .mulf a b c
  | .divf a b c => fields3 .divf a b c
  | .add a b c => fields3 .add a b c
  | .addi a lit => fieldsLit .addi a 0 lit
  | .sub a b c => fields3 .sub a b c
  | .subi a lit => fieldsLit .subi a 0 lit
  | .mul a b c => fields3 .mul a b c
  | .div a b c => fields3 .div a b c
  | .privHalt => fieldsLit .priv 0 0 0
  | .privEnterSupervisor => fieldsLit .priv 0 0 1
  | .privEnterUser => fieldsLit .priv 0 0 2
  | .privInput a b => fieldsLit .priv a b 3
  | .privOutput a b => fieldsLit .priv a b 4

/-- The word of an instruction (R63). -/
def encodeWord (i : Instr) : IWord := encodeFields (fieldsOf i)

/-- The words of an instruction: always one (R50). -/
def encode (i : Instr) : List IWord := [encodeWord i]

/-- The bytes of an instruction as they lie in memory, lowest address first (R34, R63). -/
def encodeBytes (i : Instr) : List Byte := Machine.leBytes 4 (encodeWord i).toNat

end Sys2Proof
end

