-- ==== Sys2Proof/Machine/Fetch.lean ====
section
/-! DEFINITION. Steps 1 to 4 of R150: the bounds check of the pc, the fetch, the decoding, the opcode check, in
this order (R168; D28, log entry 30). -/

namespace Sys2Proof.Machine

/-- What the front of a step finds: an instruction, or the fault that the step raises. -/
inductive Fetched where
  | instr (i : Instr)
  | fault (cause : Cause)
  deriving DecidableEq, Repr

/-- The instruction at the pc (R150 steps 1 to 4): `PcBounds` when the four bytes do not lie inside memory (R38,
R151; lower limit 0, D7, log entry 7), `IllegalOpcode` when the opcode selects no handler (R153; D20, log
entry 21). Memory is read anew at every step (R44, R157). -/
def fetch (s : State) : Fetched :=
  if inBounds s.pc Config.ilen then
    match decodeWord (s.load4 s.pc) with
    | some i => .instr i
    | none => .fault (.illegalOpcode (s.load4 s.pc))
  else .fault (.pcBounds s.pc)

/-- Memory with an instruction word laid down at an address, least significant byte first (R34). -/
def Memory.writeWord (m : Memory) (addr : Nat) (w : IWord) : Memory := m.writeNum addr Config.ilen w.toNat

end Sys2Proof.Machine
end

