-- ==== Sys2Proof/Machine/Step.lean ====
section
/-! DEFINITION. The step of the execution loop (R150) and the placing of an instruction at the pc. -/

namespace Sys2Proof.Machine

/-- One step, defined only while `status` is `RUNNING` (R18, R150): fetch, then the handler, or the fault the
fetch found, raised as a state (R161). From `HALTED` and `FAULTED` no step is taken (R18, R162; log
entry 36). -/
def step (s : State) : Host.Outcome State Fault Refusal :=
  match s.status with
  | .running =>
    match fetch s with
    | .instr i => exec i s
    | .fault cause => raise cause s
  | .halted => .fault .halted
  | .faulted cause => .fault (.faulted cause)

/-- The state with an instruction word of `nbits` bits stored where the next step fetches: at the pc. It stands
for the loader's copy of a one-word image (R191; log entry 37). -/
def State.withFetchWord (s : State) (nbits w : Nat) : State :=
  s.setMem (s.mem.writeWord s.pc.toNat (BitVec.ofNat 32 (w % 2 ^ nbits)))

end Sys2Proof.Machine
end

