-- ==== Sys2Proof/Machine/Boot.lean ====
section
/-! DEFINITION. Reset with a program image and an input stream (R190 to R193), what the environment may do to a
running machine (R148, R198), and what the host sees of a run (R23, R172). No step uses this file. -/

namespace Sys2Proof.Machine

/-- The words of an image laid down from an address on, word `i` at the address plus `4i` (R191). -/
def Memory.loadImage (m : Memory) (addr : Nat) : List IWord → Memory
  | [] => m
  | w :: ws => Memory.loadImage (m.writeWord addr w) (addr + Config.ilen) ws

/-- The outcome of reset: a reset state, or the loader's `LoadError` (R160 code 9, R193). -/
inductive Booted where
  | ready (s : State)
  | loadError
  deriving DecidableEq, Repr

/-- The reset sequence (R190) for an image and the input the environment supplies: the reset state with the
image copied to `LOAD_BASE`, or `LoadError` when the image does not fit below the ceiling (R193; D31, log
entry 32). -/
def boot (image : List IWord) (input : InStream) : Booted :=
  if loadBase + Config.ilen * image.length ≤ imageCeiling then
    .ready ((State.reset.setMem (State.reset.mem.loadImage loadBase image)).setIn input)
  else .loadError

/-- The environment supplies one more item of input (R148, R198); it has no effect on a closed stream. -/
def InStream.supply (i : InStream) (item : InItem) : InStream :=
  match i.ending with
  | .waiting => ⟨i.items ++ [item], .waiting⟩
  | .closed => i

/-- The environment closes the input stream (R22, R148). -/
def InStream.close (i : InStream) : InStream := ⟨i.items, .closed⟩

/-- The encoding `USER = 0`, `SUPERVISOR = 1` (R17; D32, log entry 33). -/
def Mode.bit : Mode → BitVec 1
  | .user => 0
  | .supervisor => 1

/-- The numeric code of a fault (R160; D22, log entry 23). -/
def Cause.code : Cause → Nat
  | .pcBounds _ => 1
  | .dataBounds _ => 2
  | .stackBounds _ => 3
  | .divZero => 4
  | .fDivZero => 5
  | .ioError _ => 6
  | .unknownPriv _ => 7
  | .illegalOpcode _ => 8

/-- The exit code of a finished run (R172; the value of a non-zero one is D35, log entry 35); none while
running. -/
def exitCode : Status → Option Nat
  | .running => none
  | .halted => some 0
  | .faulted cause => some cause.code

/-- The text the host sees: the decimal numerals of the values one after the other, no separator (R23; D27, log
entry 29). -/
def outText (vs : List Word) : String := String.join (vs.map fun v => Nat.repr v.toNat)

end Sys2Proof.Machine
end

