-- ==== Sys2Proof/Safety.lean ====
section
/-! DEFINITION. The terms the claims are stated in: what an instruction may do to a state, said through the
reads of single registers and single bytes; the invariant every step keeps; what a successful end is. -/

namespace Sys2Proof.Machine

/-- Every register reads as before. -/
def SameRegs (s t : State) : Prop := ∀ i : Reg, t.reg i = s.reg i

/-- Every byte of memory reads as before. -/
def SameMemory (s t : State) : Prop := ∀ addr : Nat, t.mem.read addr = s.mem.read addr

/-- The mode, the run status and both streams are as before. -/
structure SameControl (s t : State) : Prop where
  mode : t.mode = s.mode
  status : t.status = s.status
  inStream : t.inStream = s.inStream
  outStream : t.outStream = s.outStream

/-- `t` is `s` with `v` in register `a` and the pc advanced by 4; every other register, every byte of memory,
the mode, the status and both streams as before. -/
structure WritesRegister (s t : State) (a : Reg) (v : Word) : Prop where
  result : t.reg a = v
  others : ∀ i : Reg, i ≠ a → t.reg i = s.reg i
  pc : t.pc = s.pc + 4
  memory : SameMemory s t
  control : SameControl s t

/-- `t` is `s` with another pc; everything else as before. -/
structure Jumps (s t : State) (target : Word) : Prop where
  pc : t.pc = target
  regs : SameRegs s t
  memory : SameMemory s t
  control : SameControl s t

/-- `t` is `s` with the eight bytes of `v` at `addr`, least significant first, and the pc at `target`; every
byte outside these eight, every register, the mode, the status and both streams as before. -/
structure Stores (s t : State) (addr v target : Word) : Prop where
  stored : ∀ k : Nat, k < 8 → t.mem.read (addr.toNat + k) = v.extractLsb' (8 * k) 8
  outside : ∀ a : Nat, a < addr.toNat ∨ addr.toNat + 8 ≤ a → t.mem.read a = s.mem.read a
  pc : t.pc = target
  regs : SameRegs s t
  control : SameControl s t

/-- `t` is `s` with the fault recorded in its status; everything else, the pc included, as before (R161). -/
structure Faults (s t : State) (cause : Cause) : Prop where
  status : t.status = .faulted cause
  pc : t.pc = s.pc
  regs : SameRegs s t
  memory : SameMemory s t
  mode : t.mode = s.mode
  inStream : t.inStream = s.inStream
  outStream : t.outStream = s.outStream

/-- A run that ended well: the status is `HALTED`; a faulted state is never one (R162, R170). -/
def Successful (s : State) : Prop := s.status = .halted

/-- A state that is not running records a stop that its own instruction makes: put back to running, it takes the
very step that stopped it. After a malformed input item the item stands in front again (R141, R161). -/
def StopWitnessed (s : State) : Prop :=
  s.status ≠ .running →
    ∃ input : InStream,
      (input = s.inStream ∨ input = ⟨.malformed :: s.inStream.items, s.inStream.ending⟩) ∧
      step ((s.setStatus .running).setIn input) = .next s

/-- The invariant of the machine: memory is in canonical form, lists only addresses of memory, and a state that
has stopped records its own stop. -/
structure Inv (s : State) : Prop where
  canonical : s.mem.wf = true
  within : s.mem.within memSize = true
  stop : StopWitnessed s

/-- The answer of a step or an instruction with the next state, where there is one, changed. -/
def mapNext (f : State → State) : Result → Result
  | .next s => .next (f s)
  | .fault r => .fault r
  | .refused r => .refused r

end Sys2Proof.Machine
end

