-- ==== Sys2Proof/Certificates/Slice0/Obligations.lean ====
section
/-! DEFINITION. The statements for the provers. Each docstring names the rule of spec/ it formalises; where a
clause rests on a decision of the spec (D<n> of 92_eei_decisions.md) or on a choice of the model, it names the
entry of the assumption log. -/

open Sys2Proof Sys2Proof.Machine

namespace Sys2Proof.Claims

/-- The word of five fields by the arithmetic formula of R51, written apart from the decoder and encoder. -/
def word (op : Nat) (a b c : Reg) (lit : Lit) : IWord :=
  BitVec.ofNat 32 (op * 2 ^ 27 + a.val * 2 ^ 22 + b.val * 2 ^ 17 + c.val * 2 ^ 12 + lit.toNat)

/-- A pattern that is a number: its exponent is not 0x7FF (R120). -/
def isFinite (w : Word) : Prop := fpExp w ≠ 2047

/-- The number a finite pattern stands for (R6, R120), as a rational. -/
def fpValue (w : Word) : ℚ := (if w.msb then -1 else 1) * (fpMag w : ℚ) / 2 ^ 1074

/-- The least magnitude that rounds to an infinity: half-way between the largest finite number and 2^1024. -/
def overflowLimit : ℚ := 2 ^ 1024 - 2 ^ 970

/-- `v` is the number `z` correctly rounded, to nearest, ties to even, with sign bit `neg`: below the overflow
limit `v` is finite, no finite pattern is nearer to `z`, and where a different number is equally near, `v` is
the one whose last bit is 0; from the limit on `v` is the infinity (R120(a) to (c)). -/
def RoundsTo (z : ℚ) (neg : Bool) (v : Word) : Prop :=
  v.msb = neg ∧
  (|z| < overflowLimit →
    isFinite v ∧
    ∀ w : Word, isFinite w →
      |fpValue v - z| ≤ |fpValue w - z| ∧
      (|fpValue v - z| = |fpValue w - z| → fpValue w ≠ fpValue v → v.getLsbD 0 = false)) ∧
  (overflowLimit ≤ |z| → v = fpInf neg)

/-- The magnitude in units of a 63-bit pattern without its sign, below the infinity. -/
def lowMag (p : Nat) : Nat := if p < 2 ^ 52 then p else (2 ^ 52 + p % 2 ^ 52) * 2 ^ (p / 2 ^ 52 - 1)

/-- The instruction completes: it writes `v` to the register `a` and changes nothing else but the pc. -/
def Writes (i : Instr) (s : State) (a : Reg) (v : Word) : Prop := ∃ t, exec i s = .next t ∧ WritesRegister s t a v

/-- The instruction completes, and what it writes is some NaN. -/
def WritesNan (i : Instr) (s : State) (a : Reg) : Prop := ∃ v, Writes i s a v ∧ fpIsNan v = true

/-- The text is the decimal numeral of the number: digits `0` to `9`, at least one, the first of them 0 only where it
is the only one, whose value read from the left is the number (R23). -/
def IsNumeral (text : String) (n : Nat) : Prop :=
  ∃ digits : List Nat,
    text = String.ofList (digits.map fun d => Char.ofNat ('0'.toNat + d)) ∧
    (∀ d ∈ digits, d < 10) ∧ digits ≠ [] ∧ (digits.head? = some 0 → digits = [0]) ∧
    digits.foldl (fun value d => 10 * value + d) 0 = n

/-- Whether an operation uses the field `a`, by R54 (for `priv` by its literal). -/
def usesA (o : Op) (lit : Lit) : Bool :=
  match o with
  | .brr2 => false
  | .ret => false
  | .priv => decide (3 ≤ lit.toNat)
  | _ => true

/-- Whether an operation uses the field `b`, by R54. -/
def usesB (o : Op) (lit : Lit) : Bool :=
  match o with
  | .and | .or | .xor | .not | .shftr | .shftl | .brnz | .brgt => true
  | .movLd | .movRr | .movSt | .addf | .subf | .mulf | .divf => true
  | .add | .sub | .mul | .div => true
  | .priv => decide (3 ≤ lit.toNat)
  | _ => false

/-- Whether an operation uses the field `c`, by R54. -/
def usesC (o : Op) : Bool :=
  match o with
  | .and | .or | .xor | .shftr | .shftl | .brgt => true
  | .addf | .subf | .mulf | .divf | .add | .sub | .mul | .div => true
  | _ => false

/-- Whether an operation uses the literal, by R54. -/
def usesLit (o : Op) : Bool :=
  match o with
  | .shftri | .shftli | .brr2 | .priv | .movLd | .movHi | .movSt | .addi | .subi => true
  | _ => false

/-- The register an instruction may write, by R13. -/
def destination (i : Instr) : Option Reg :=
  match i with
  | .and a _ _ | .or a _ _ | .xor a _ _ | .not a _ => some a
  | .shftr a _ _ | .shftri a _ | .shftl a _ _ | .shftli a _ => some a
  | .addf a _ _ | .subf a _ _ | .mulf a _ _ | .divf a _ _ => some a
  | .add a _ _ | .addi a _ | .sub a _ _ | .subi a _ | .mul a _ _ | .div a _ _ => some a
  | .movLd a _ _ | .movRr a _ | .movHi a _ => some a
  | .privInput a _ => some a
  | .priv a _ lit => if lit = 3 then some a else none
  | _ => none

/-- The address of the eight bytes an instruction stores to in a state, with the functions its meaning uses;
none for an instruction that stores nothing. -/
def storeAddress (i : Instr) (s : State) : Option Word :=
  match i with
  | .movSt a _ lit => some (dataAddress (s.reg a) lit)
  | .call _ => some s.slot
  | _ => none

/-- The instruction is an input: the row `priv.input`, or the general `priv` row at its literal. -/
def isInput (i : Instr) : Prop := ∃ a b, i = .privInput a b ∨ i = .priv a b 3

/-- The instruction is a mode switch. -/
def isModeSwitch (i : Instr) : Prop :=
  i = .privEnterSupervisor ∨ i = .privEnterUser ∨ ∃ a b, i = .priv a b 1 ∨ i = .priv a b 2

/-- The destination of an integer arithmetic instruction; none for an instruction of another family (R117). -/
def integerDest (i : Instr) : Option Reg :=
  match i with
  | .add a _ _ | .addi a _ | .sub a _ _ | .subi a _ | .mul a _ _ | .div a _ _ => some a
  | _ => none

/-- The instruction is a shift, an integer or a floating-point operation. -/
def isArithmetic (i : Instr) : Bool :=
  match i with
  | .shftr _ _ _ | .shftri _ _ | .shftl _ _ _ | .shftli _ _ => true
  | .add _ _ _ | .addi _ _ | .sub _ _ _ | .subi _ _ | .mul _ _ _ | .div _ _ _ => true
  | .addf _ _ _ | .subf _ _ _ | .mulf _ _ _ | .divf _ _ _ => true
  | _ => false

/-- The value of the divisor, for the two divisions; none for other instructions. -/
def divisor (i : Instr) (s : State) : Option Word :=
  match i with
  | .div _ _ c | .divf _ _ c => some (s.reg c)
  | _ => none

/-- The run has ended with an exit code that is not zero. -/
def FailedExit (s : State) : Prop := ∃ n, exitCode s.status = some n ∧ n ≠ 0

/-- Where a taken transfer goes, for the control transfers of R95; none for other instructions. -/
def transferTarget (i : Instr) (s : State) : Option Word :=
  match i with
  | .br a | .brnz a _ | .brgt a _ _ | .call a => some (s.reg a)
  | .brr1 a => some (s.pc + s.reg a)
  | .brr2 lit => some (s.pc + lit.signExtend 64)
  | .ret => some (s.load8 s.slot)
  | _ => none

/-- A control transfer is taken: always, or, for the two conditional branches, when its condition holds. -/
def isTaken (i : Instr) (s : State) : Prop :=
  match i with
  | .brnz _ b => s.reg b ≠ 0
  | .brgt _ b c => (s.reg c).toInt < (s.reg b).toInt
  | _ => True

end Sys2Proof.Claims

open Sys2Proof.Claims

/-! ### Encoding -/

/-- R51, R52: the five fields of a word by their bit positions, read as numbers; every tuple of fields encodes to
the one word `op*2^27 + a*2^22 + b*2^17 + c*2^12 + L`, decodes from it, and every word comes from its fields. -/
def Obligations.FieldsAndWordsCorrespond : Prop :=
  (∀ f : Fields,
    (encodeFields f).toNat =
      f.op.toNat * 2 ^ 27 + f.a.toNat * 2 ^ 22 + f.b.toNat * 2 ^ 17 + f.c.toNat * 2 ^ 12 + f.lit.toNat ∧
    decodeFields (encodeFields f) = f) ∧
  (∀ w : IWord,
    encodeFields (decodeFields w) = w ∧
    (decodeFields w).op.toNat = w.toNat / 2 ^ 27 ∧
    (decodeFields w).a.toNat = w.toNat / 2 ^ 22 % 32 ∧
    (decodeFields w).b.toNat = w.toNat / 2 ^ 17 % 32 ∧
    (decodeFields w).c.toNat = w.toNat / 2 ^ 12 % 32 ∧
    (decodeFields w).lit.toNat = w.toNat % 4096)

/-- Decode and encode agree, for every well-formed instruction of every family: the word, and its four bytes in
memory order followed by anything, decode to the instruction. The opcode numbers are D1 (log entry 1), the byte
order is D4 (log entry 4). -/
def Obligations.DecodeOfEncodeIsTheInstruction : Prop :=
  ∀ i : Instr, i.wf = true →
    decodeWord (encodeWord i) = some i ∧
    ∀ rest : List Byte, decode (encodeBytes i ++ rest) = .ok i

/-- What the decoder answers is well-formed, and its own word differs from the decoded one at most in fields the
instruction ignores: both decode alike. -/
def Obligations.DecodedInstructionsAreWellFormed : Prop :=
  ∀ (w : IWord) (i : Instr), decodeWord w = some i →
    i.wf = true ∧ decodeWord (encodeWord i) = decodeWord w

/-- R59: a word is a legal instruction exactly when its opcode is 0 to 29, and two words with the same opcode that
agree on the fields their instruction uses (R54) decode to the same instruction, whatever the ignored fields
hold. For `priv` the literal decides which fields are used; the term of an unknown literal keeps the register
fields, and they change nothing. Which fields an instruction ignores is D21 (log entry 22). -/
def Obligations.IgnoredFieldsChangeNothing : Prop :=
  (∀ w : IWord, (∃ i, decodeWord w = some i) ↔ (decodeFields w).op.toNat < 30) ∧
  (∀ (w v : IWord) (o : Op),
    opOfNumber (decodeFields w).op.toNat = some o →
    (decodeFields v).op = (decodeFields w).op →
    (usesLit o = true → (decodeFields v).lit = (decodeFields w).lit) →
    (usesA o (decodeFields w).lit = true → (decodeFields v).a = (decodeFields w).a) →
    (usesB o (decodeFields w).lit = true → (decodeFields v).b = (decodeFields w).b) →
    (usesC o = true → (decodeFields v).c = (decodeFields w).c) →
    decodeWord v = decodeWord w) ∧
  (∀ (a b a' b' : Reg) (lit : Lit) (s : State), 5 ≤ lit.toNat →
    exec (.priv a b lit) s = exec (.priv a' b' lit) s)

/-- The opcode map is a bijection between the numbers 0 to 29 and the 30 operations; 30 and above select none.
Which number selects which is D1 (log entry 1). -/
def Obligations.OpcodeMapIsABijection : Prop :=
  (∀ o : Op, numberOfOp o < 30 ∧ opOfNumber (numberOfOp o) = some o) ∧
  (∀ n : Nat, n < 30 → ∃ o : Op, opOfNumber n = some o ∧ numberOfOp o = n) ∧
  (∀ n : Nat, 30 ≤ n → opOfNumber n = none)

/-- Every row of the opcode table decodes: the word of R51's formula with the row's opcode number, at every value
of every field, gives the row's instruction with the fields it uses. The numbers are D1 (log entry 1), the
ignoring of the other fields is D21 (log entry 22), the comparison of the whole literal D33 (log entry 34). -/
def Obligations.WordsOfTheTableDecode : Prop :=
  ∀ (a b c : Reg) (lit : Lit),
    decodeWord (word 0 a b c lit) = some (.and a b c) ∧
    decodeWord (word 1 a b c lit) = some (.or a b c) ∧
    decodeWord (word 2 a b c lit) = some (.xor a b c) ∧
    decodeWord (word 3 a b c lit) = some (.not a b) ∧
    decodeWord (word 4 a b c lit) = some (.shftr a b c) ∧
    decodeWord (word 5 a b c lit) = some (.shftri a lit) ∧
    decodeWord (word 6 a b c lit) = some (.shftl a b c) ∧
    decodeWord (word 7 a b c lit) = some (.shftli a lit) ∧
    decodeWord (word 8 a b c lit) = some (.br a) ∧
    decodeWord (word 9 a b c lit) = some (.brr1 a) ∧
    decodeWord (word 10 a b c lit) = some (.brr2 lit) ∧
    decodeWord (word 11 a b c lit) = some (.brnz a b) ∧
    decodeWord (word 12 a b c lit) = some (.call a) ∧
    decodeWord (word 13 a b c lit) = some .ret ∧
    decodeWord (word 14 a b c lit) = some (.brgt a b c) ∧
    decodeWord (word 15 a b c 0) = some .privHalt ∧
    decodeWord (word 15 a b c 1) = some .privEnterSupervisor ∧
    decodeWord (word 15 a b c 2) = some .privEnterUser ∧
    decodeWord (word 15 a b c 3) = some (.privInput a b) ∧
    decodeWord (word 15 a b c 4) = some (.privOutput a b) ∧
    (5 ≤ lit.toNat → decodeWord (word 15 a b c lit) = some (.priv a b lit)) ∧
    decodeWord (word 16 a b c lit) = some (.movLd a b lit) ∧
    decodeWord (word 17 a b c lit) = some (.movRr a b) ∧
    decodeWord (word 18 a b c lit) = some (.movHi a lit) ∧
    decodeWord (word 19 a b c lit) = some (.movSt a b lit) ∧
    decodeWord (word 20 a b c lit) = some (.addf a b c) ∧
    decodeWord (word 21 a b c lit) = some (.subf a b c) ∧
    decodeWord (word 22 a b c lit) = some (.mulf a b c) ∧
    decodeWord (word 23 a b c lit) = some (.divf a b c) ∧
    decodeWord (word 24 a b c lit) = some (.add a b c) ∧
    decodeWord (word 25 a b c lit) = some (.addi a lit) ∧
    decodeWord (word 26 a b c lit) = some (.sub a b c) ∧
    decodeWord (word 27 a b c lit) = some (.subi a lit) ∧
    decodeWord (word 28 a b c lit) = some (.mul a b c) ∧
    decodeWord (word 29 a b c lit) = some (.div a b c) ∧
    decodeWord (word 30 a b c lit) = none ∧
    decodeWord (word 31 a b c lit) = none

/-- A few words written out from the spec's own examples decode to the instructions it gives for them (the words
rest on D1 and D4, log entries 1 and 4). -/
def Obligations.ExampleWordsDecode : Prop :=
  decode [0x00, 0x10, 0x80, 0xC0] = .ok (.add 2 0 1) ∧
  decode [0xF8, 0x0F, 0x44, 0x80] = .ok (.movLd 1 2 0xFF8) ∧
  decode [0x00, 0x30, 0x44, 0x70] = .ok (.brgt 1 2 3) ∧
  decode [0x00, 0xF0, 0xFF, 0x7F] = .ok .privHalt ∧
  decode [0xFF, 0xFF, 0xFF, 0xFF] = .illegalOpcode 0xFFFFFFFF

/-! ### Reset, fetch and the step -/

/-- The values at reset (R27, R190): registers 0 to 30 zero, register 31 the top of memory, every byte of memory
zero, the pc at the load base, user mode, running, nothing written. The numbers MEM_SIZE, LOAD_BASE and SP_INIT
are D2, D3 and D9 (log entries 2, 3 and 9). -/
def Obligations.ResetState : Prop :=
  (∀ i : Reg, i ≠ 31 → State.reset.reg i = 0) ∧
  State.reset.reg 31 = 524288 ∧
  State.reset.pc = 4096 ∧
  State.reset.mode = .user ∧
  State.reset.status = .running ∧
  (∀ addr : Nat, State.reset.mem.read addr = 0) ∧
  State.reset.outStream = []

/-- Reset with an image (R190, R191, R193): an image that fits below the ceiling gives a reset state that differs
from the reset state of the empty image only in memory and in the input supplied; word `i` reads back at
`LOAD_BASE + 4i`, every byte outside the image is zero; an image that does not fit gives no state. The ceiling is
D31 (log entry 32), the byte order D4 (log entry 4). -/
def Obligations.BootLaysDownTheImage : Prop :=
  ∀ (image : List IWord) (input : InStream),
    (4096 + 4 * image.length ≤ 524288 →
      ∃ s : State, boot image input = .ready s ∧
        SameRegs State.reset s ∧ s.pc = State.reset.pc ∧ s.mode = .user ∧ s.status = .running ∧
        s.outStream = [] ∧ s.inStream = input ∧
        (∀ (k : Nat) (h : k < image.length), s.load4 (BitVec.ofNat 64 (4096 + 4 * k)) = image[k]) ∧
        (∀ addr : Nat, addr < 4096 ∨ 4096 + 4 * image.length ≤ addr → s.mem.read addr = 0)) ∧
    (524288 < 4096 + 4 * image.length → boot image input = .loadError)

/-- A step runs the decoded instruction: while running, with the pc in bounds and the word at the pc decoding to
`i`, the step is exactly the effect of `i`; nothing is added around it (R150). The same from the bytes. The bounds are
D7 over D2, the byte order is D4 (log entries 7, 2 and 4). -/
def Obligations.StepRunsTheDecodedInstruction : Prop :=
  ∀ (s : State) (i : Instr),
    s.status = .running → s.pc.toNat + 4 ≤ 524288 →
    (decodeWord (s.load4 s.pc) = some i → step s = exec i s) ∧
    (decode (s.mem.readBytes s.pc.toNat 4) = .ok i → step s = exec i s)

/-- The fetch checks (R151, R153, R168): a running machine whose pc leaves no room for a word raises `PcBounds`
whatever memory holds; with the pc in bounds a word whose opcode is 30 or 31 raises `IllegalOpcode` with the
word. The lower limit 0, the fault on such opcodes and the order are D7, D20 and D28 (log entries 7, 21, 30). -/
def Obligations.FetchFaults : Prop :=
  ∀ s : State, s.status = .running →
    (524288 < s.pc.toNat + 4 → ∃ t, step s = .next t ∧ Faults s t (.pcBounds s.pc)) ∧
    (s.pc.toNat + 4 ≤ 524288 → 30 * 2 ^ 27 ≤ (s.load4 s.pc).toNat →
      ∃ t, step s = .next t ∧ Faults s t (.illegalOpcode (s.load4 s.pc)))

/-- R162: from a faulted state no step is taken and it is no successful end; so no instruction returns from a
fault, and a second fault cannot follow it. -/
def Obligations.FaultedIsTerminal : Prop :=
  ∀ (s : State) (cause : Cause), s.status = .faulted cause →
    (∀ t, step s ≠ .next t) ∧ ¬ Successful s ∧
    ∀ (n : Nat) (t : State), Sys2Proof.core.run n s = .next t → t = s

/-- From a halted or faulted state no step is taken (R18, R141); a step that is taken starts from a running state. The halt keeps
the pc, by D24 (log entry 25). That such a step answers a Lean fault is the form of log entry 36. -/
def Obligations.OnlyRunningStatesStep : Prop :=
  ∀ s : State,
    (s.status = .halted → step s = .fault .halted) ∧
    (∀ cause, s.status = .faulted cause → step s = .fault (.faulted cause)) ∧
    (∀ t, step s = .next t → s.status = .running) ∧
    (∀ t, exec .privHalt s = .next t → t.pc = s.pc)

/-- R170: the halt sets `HALTED`, keeping registers, memory, mode and streams, and no other step ends in `HALTED`. -/
def Obligations.HaltIsTheOnlySuccessfulEnd : Prop :=
  (∀ s : State, ∃ t, exec .privHalt s = .next t ∧ Successful t ∧ SameRegs s t ∧ SameMemory s t ∧
    t.mode = s.mode ∧ t.inStream = s.inStream ∧ t.outStream = s.outStream) ∧
  (∀ s t : State, step s = .next t → Successful t → fetch s = .instr .privHalt)

/-- A running machine always moves: every step from it has a next state, but for the input that waits for an item
(R148); no step is refused. The wait as a stop is the model's (log entry 27). -/
def Obligations.RunningMachineMovesOrWaitsForInput : Prop :=
  ∀ s : State, s.status = .running →
    (∃ t, step s = .next t) ∨
    (step s = .fault .inputBlocked ∧ s.inStream = ⟨[], .waiting⟩ ∧
      ∃ a b, fetch s = .instr (.privInput a b) ∧ s.reg b = 0)

/-- Faults are precise (R161): a step that ends faulted changed nothing but the status, except that a malformed
input item was consumed. That the pc is kept is D23 (log entry 24). -/
def Obligations.FaultsArePrecise : Prop :=
  ∀ (s t : State) (cause : Cause), step s = .next t → t.status = .faulted cause →
    Faults s t cause ∨
    (cause = .ioError .malformed ∧ ∃ rest,
      s.inStream = ⟨.malformed :: rest, s.inStream.ending⟩ ∧
      Faults (s.setIn ⟨rest, s.inStream.ending⟩) t cause)

/-- The exit code (R172): none while running, 0 exactly for `HALTED`, and for a fault the code that the table of R160
gives its cause, never 0, whatever information the cause records. The codes are D22 and their use as the exit code D35
(log entries 23 and 35). -/
def Obligations.ExitCodeTellsSuccess : Prop :=
  exitCode .running = none ∧
  (∀ st : Status, exitCode st = some 0 ↔ st = .halted) ∧
  (∀ pc, exitCode (.faulted (.pcBounds pc)) = some 1) ∧
  (∀ addr, exitCode (.faulted (.dataBounds addr)) = some 2) ∧
  (∀ slot, exitCode (.faulted (.stackBounds slot)) = some 3) ∧
  exitCode (.faulted .divZero) = some 4 ∧
  exitCode (.faulted .fDivZero) = some 5 ∧
  (∀ reason, exitCode (.faulted (.ioError reason)) = some 6) ∧
  (∀ lit, exitCode (.faulted (.unknownPriv lit)) = some 7) ∧
  (∀ w, exitCode (.faulted (.illegalOpcode w)) = some 8)

/-! ### The instructions -/

/-- R74 with the formulas of the family: each bit of the result is the operation on the bits of the sources; the
pc advances by 4, nothing but the destination changes, nothing faults; the result depends on the sources alone. -/
def Obligations.BitwiseResults : Prop :=
  ∀ (a b c : Reg) (s : State),
    (∃ t v, exec (.and a b c) s = .next t ∧ WritesRegister s t a v ∧
      ∀ k, k < 64 → v.getLsbD k = ((s.reg b).getLsbD k && (s.reg c).getLsbD k)) ∧
    (∃ t v, exec (.or a b c) s = .next t ∧ WritesRegister s t a v ∧
      ∀ k, k < 64 → v.getLsbD k = ((s.reg b).getLsbD k || (s.reg c).getLsbD k)) ∧
    (∃ t v, exec (.xor a b c) s = .next t ∧ WritesRegister s t a v ∧
      ∀ k, k < 64 → v.getLsbD k = ((s.reg b).getLsbD k != (s.reg c).getLsbD k)) ∧
    (∃ t v, exec (.not a b) s = .next t ∧ WritesRegister s t a v ∧
      v.toNat = (2 ^ 64 - 1) - (s.reg b).toNat)

/-- Shift results, register and literal forms, for every count: below 64 the logical shift as a number, from 64 on
zero (R80 to R85). The zero fill is D12 (log entry 12), the zero result from 64 on is D13 (log entry 13). -/
def Obligations.ShiftResults : Prop :=
  ∀ (a b c : Reg) (lit : Lit) (s : State),
    (∃ t v, exec (.shftr a b c) s = .next t ∧ WritesRegister s t a v ∧
      v.toNat = (s.reg b).toNat / 2 ^ (s.reg c).toNat) ∧
    (∃ t v, exec (.shftri a lit) s = .next t ∧ WritesRegister s t a v ∧
      v.toNat = (s.reg a).toNat / 2 ^ lit.toNat) ∧
    (∃ t v, exec (.shftl a b c) s = .next t ∧ WritesRegister s t a v ∧
      v.toNat = (s.reg b).toNat * 2 ^ (s.reg c).toNat % 2 ^ 64) ∧
    (∃ t v, exec (.shftli a lit) s = .next t ∧ WritesRegister s t a v ∧
      v.toNat = (s.reg a).toNat * 2 ^ lit.toNat % 2 ^ 64)

/-- The unconditional branches (R90 to R92): the pc is replaced, by the register, or by the branch's own address
plus the register or plus the literal less 4096 where its bit 11 is set, modulo 2^64; nothing else changes. -/
def Obligations.UnconditionalBranches : Prop :=
  ∀ (a : Reg) (lit : Lit) (s : State),
    (∃ t, exec (.br a) s = .next t ∧ Jumps s t (s.reg a)) ∧
    (∃ t target, exec (.brr1 a) s = .next t ∧ Jumps s t target ∧
      target.toNat = (s.pc.toNat + (s.reg a).toNat) % 2 ^ 64) ∧
    (∃ t target, exec (.brr2 lit) s = .next t ∧ Jumps s t target ∧
      (target.toNat : Int) =
        (s.pc.toNat + (if lit.toNat < 2048 then (lit.toNat : Int) else (lit.toNat : Int) - 4096)) % 2 ^ 64)

/-- The conditional branches (R93, R94): `brnz` goes to `x[a]` exactly when some bit of `x[b]` is set, `brgt`
exactly when `x[b]` is strictly greater than `x[c]`, else the pc advances by 4; nothing else changes. That
`brgt` compares signed numbers is D16 (log entry 16). -/
def Obligations.ConditionalBranches : Prop :=
  ∀ (a b c : Reg) (s : State),
    ((s.reg b).toNat ≠ 0 → ∃ t, exec (.brnz a b) s = .next t ∧ Jumps s t (s.reg a)) ∧
    ((s.reg b).toNat = 0 → ∃ t, exec (.brnz a b) s = .next t ∧ Jumps s t (s.pc + 4)) ∧
    ((s.reg c).toInt < (s.reg b).toInt → ∃ t, exec (.brgt a b c) s = .next t ∧ Jumps s t (s.reg a)) ∧
    ((s.reg b).toInt ≤ (s.reg c).toInt → ∃ t, exec (.brgt a b c) s = .next t ∧ Jumps s t (s.pc + 4))

/-- A transfer that completes while running goes to its target when it is taken, whatever 64-bit value that is, and to
the next instruction when it is not; only the next fetch checks the pc: a bad one makes the next step record
`PcBounds` with the pc equal to the bad target (R95). The signed comparison is D16, the slot D10, the bounds of the
fetch D7 (log entries 16, 10 and 7). -/
def Obligations.TransfersAreCheckedByTheNextFetch : Prop :=
  ∀ (i : Instr) (s t : State) (target : Word),
    transferTarget i s = some target → exec i s = .next t → t.status = .running →
    (isTaken i s → t.pc = target) ∧ (¬ isTaken i s → t.pc = s.pc + 4) ∧
    (524288 < t.pc.toNat + 4 → ∃ u, step t = .next u ∧ Faults t u (.pcBounds t.pc))

/-- `call` and `return` with the slot in bounds (R100, R101): `call` stores the address of the next instruction in
the slot and goes to `x[a]`; `return` goes to the eight bytes of the slot; neither changes a register. The slot
at `x[31] - 8`, unmoved, and its bounds are D10 and D11 (log entries 10 and 11), the byte order D4. That memory is
canonical, here and below, is a clause of the invariant every step keeps. -/
def Obligations.CallAndReturnComplete : Prop :=
  ∀ (a : Reg) (s : State),
    s.slot = s.reg 31 - 8 ∧
    (4096 ≤ s.slot.toNat → s.slot.toNat + 8 ≤ 524288 → s.mem.wf = true →
      (∃ t, exec (.call a) s = .next t ∧ Stores s t s.slot (s.pc + 4) (s.reg a)) ∧
      (∃ t target, exec .ret s = .next t ∧ Jumps s t target ∧
        ∀ k, k < 8 → target.extractLsb' (8 * k) 8 = s.mem.read (s.slot.toNat + k)))

/-- A slot that starts below the load base or does not end inside memory faults, in both instructions, with
nothing written (R37, R105; D11, log entry 11). -/
def Obligations.SlotOutOfBoundsFaults : Prop :=
  ∀ (a : Reg) (s : State),
    s.slot.toNat < 4096 ∨ 524288 < s.slot.toNat + 8 →
    (∃ t, exec (.call a) s = .next t ∧ Faults s t (.stackBounds (s.reg 31 - 8))) ∧
    (∃ t, exec .ret s = .next t ∧ Faults s t (.stackBounds (s.reg 31 - 8)))

/-- A `call` that succeeds, followed by `return`, comes back to the instruction after the call, with registers,
mode and streams as before and memory changed in the slot only (R104; the slot is D10, log entry 10). -/
def Obligations.CallThenReturnComesBack : Prop :=
  ∀ (a : Reg) (s t : State), s.mem.wf = true → exec (.call a) s = .next t → t.status = .running →
    ∃ u, exec .ret t = .next u ∧ Stores s u s.slot (s.pc + 4) (s.pc + 4)

/-- `add`, `sub`, `mul` and the two immediate forms, as numbers modulo 2^64, read unsigned and read signed (R110 to
R114, R116). The operand order is D15 (log entry 15), the in-place immediate forms are D14 (log entry 14). -/
def Obligations.IntegerResultsWrap : Prop :=
  ∀ (a b c : Reg) (lit : Lit) (s : State),
    (∃ t v, exec (.add a b c) s = .next t ∧ WritesRegister s t a v ∧
      v.toNat = ((s.reg b).toNat + (s.reg c).toNat) % 2 ^ 64 ∧
      v.toInt = ((s.reg b).toInt + (s.reg c).toInt).bmod (2 ^ 64)) ∧
    (∃ t v, exec (.addi a lit) s = .next t ∧ WritesRegister s t a v ∧
      v.toNat = ((s.reg a).toNat + lit.toNat) % 2 ^ 64) ∧
    (∃ t v, exec (.sub a b c) s = .next t ∧ WritesRegister s t a v ∧
      (v.toNat : Int) = ((s.reg b).toNat - (s.reg c).toNat : Int) % 2 ^ 64 ∧
      v.toInt = ((s.reg b).toInt - (s.reg c).toInt).bmod (2 ^ 64)) ∧
    (∃ t v, exec (.subi a lit) s = .next t ∧ WritesRegister s t a v ∧
      (v.toNat : Int) = ((s.reg a).toNat - lit.toNat : Int) % 2 ^ 64) ∧
    (∃ t v, exec (.mul a b c) s = .next t ∧ WritesRegister s t a v ∧
      v.toNat = (s.reg b).toNat * (s.reg c).toNat % 2 ^ 64 ∧
      v.toInt = ((s.reg b).toInt * (s.reg c).toInt).bmod (2 ^ 64))

/-- `div` (R115): with a divisor that is not 0 the magnitude of the quotient is the floor of the quotient of the
magnitudes and its sign the product of the signs, but that `-2^63 / -1` wraps to `-2^63`; a zero divisor faults
with no register written. The operand order is D15, the wrap D17 (log entries 15 and 17). -/
def Obligations.DivisionTruncatesAndFaultsOnZero : Prop :=
  ∀ (a b c : Reg) (s : State),
    ((s.reg c).toNat ≠ 0 → ¬ ((s.reg b).toInt = -2 ^ 63 ∧ (s.reg c).toInt = -1) →
      ∃ t v, exec (.div a b c) s = .next t ∧ WritesRegister s t a v ∧
        v.toInt.natAbs = (s.reg b).toInt.natAbs / (s.reg c).toInt.natAbs ∧
        (v.toInt < 0 → ((s.reg b).toInt < 0 ↔ 0 < (s.reg c).toInt)) ∧
        (0 < v.toInt → ((s.reg b).toInt < 0 ↔ (s.reg c).toInt < 0))) ∧
    ((s.reg b).toInt = -2 ^ 63 → (s.reg c).toInt = -1 →
      ∃ t, exec (.div a b c) s = .next t ∧ WritesRegister s t a 0x8000000000000000) ∧
    ((s.reg c).toNat = 0 → ∃ t, exec (.div a b c) s = .next t ∧ Faults s t .divZero)

/-- R117: an integer arithmetic instruction either writes its destination and advances the pc by 4, changing
nothing else, or is a `div` that faults. Either way memory and both streams are as before, and whatever the mode,
either stream and memory hold, the instruction does the same. -/
def Obligations.IntegerFamilyFrame : Prop :=
  ∀ (i : Instr) (a : Reg) (s : State), integerDest i = some a →
    ∃ t, exec i s = .next t ∧
      ((∃ v, WritesRegister s t a v) ∨ ((∃ b c, i = .div a b c ∧ s.reg c = 0) ∧ t.status = .faulted .divZero)) ∧
      SameMemory s t ∧ t.inStream = s.inStream ∧ t.outStream = s.outStream ∧
      (∀ m, exec i (s.setMode m) = .next (t.setMode m)) ∧
      (∀ x, exec i (s.setIn x) = .next (t.setIn x)) ∧
      (∀ vs, exec i (s.setOut vs) = .next (t.setOut vs)) ∧
      (∀ m, exec i (s.setMem m) = .next (t.setMem m))

/-- R164: a division, integer or floating-point, by zero is an arithmetic fault, with an exit code that is not zero; no
other shift, integer or floating-point operation faults, whatever its operands: no overflow, no shift count, no
infinity and no NaN. Of the pattern `-0.0` as a floating-point divisor this says nothing (D19, log entry 20). -/
def Obligations.OnlyDivisionByZeroIsAnArithmeticFault : Prop :=
  ∀ (i : Instr) (s : State), isArithmetic i = true →
    (divisor i s = some 0 →
      ∃ t cause, exec i s = .next t ∧ t.status = .faulted cause ∧ (cause = .divZero ∨ cause = .fDivZero) ∧
        FailedExit t) ∧
    (divisor i s ≠ some 0 → (∀ a b c, i = .divf a b c → s.reg c ≠ 0x8000000000000000) →
      ∃ t, exec i s = .next t ∧ t.status = s.status ∧ t.pc = s.pc + 4)

/-- `addf` of two finite operands writes the correctly rounded sum; an exact zero is `+0.0` unless both operands
are `-0.0` (R120, R121). Rounding and subnormals are D18 (log entry 18). -/
def Obligations.AddfIsCorrectlyRounded : Prop :=
  ∀ (a b c : Reg) (s : State), isFinite (s.reg b) → isFinite (s.reg c) →
    ∃ t v neg, exec (.addf a b c) s = .next t ∧ WritesRegister s t a v ∧
      RoundsTo (fpValue (s.reg b) + fpValue (s.reg c)) neg v ∧
      (neg = true ↔ fpValue (s.reg b) + fpValue (s.reg c) < 0 ∨
        (fpValue (s.reg b) + fpValue (s.reg c) = 0 ∧ (s.reg b).msb = true ∧ (s.reg c).msb = true))

/-- `subf` of two finite operands writes the correctly rounded difference, `x[b]` minus `x[c]`; an exact zero is
`+0.0` unless it is `-0.0` minus `+0.0` (R120, R122). D15 and D18 (log entries 15 and 18). -/
def Obligations.SubfIsCorrectlyRounded : Prop :=
  ∀ (a b c : Reg) (s : State), isFinite (s.reg b) → isFinite (s.reg c) →
    ∃ t v neg, exec (.subf a b c) s = .next t ∧ WritesRegister s t a v ∧
      RoundsTo (fpValue (s.reg b) - fpValue (s.reg c)) neg v ∧
      (neg = true ↔ fpValue (s.reg b) - fpValue (s.reg c) < 0 ∨
        (fpValue (s.reg b) - fpValue (s.reg c) = 0 ∧ (s.reg b).msb = true ∧ (s.reg c).msb = false))

/-- `mulf` of two finite operands writes the correctly rounded product, its sign the exclusive-or of the signs
(R120, R123; D18, log entry 18). -/
def Obligations.MulfIsCorrectlyRounded : Prop :=
  ∀ (a b c : Reg) (s : State), isFinite (s.reg b) → isFinite (s.reg c) →
    ∃ t v, exec (.mulf a b c) s = .next t ∧ WritesRegister s t a v ∧
      RoundsTo (fpValue (s.reg b) * fpValue (s.reg c)) ((s.reg b).msb != (s.reg c).msb) v

/-- `divf` of a finite dividend by a finite divisor that is not zero writes the correctly rounded quotient, its
sign the exclusive-or of the signs (R120, R124; D15 and D18, log entries 15 and 18). -/
def Obligations.DivfIsCorrectlyRounded : Prop :=
  ∀ (a b c : Reg) (s : State), isFinite (s.reg b) → isFinite (s.reg c) → fpValue (s.reg c) ≠ 0 →
    ∃ t v, exec (.divf a b c) s = .next t ∧ WritesRegister s t a v ∧
      RoundsTo (fpValue (s.reg b) / fpValue (s.reg c)) ((s.reg b).msb != (s.reg c).msb) v

/-- A zero divisor of `divf`, of either sign, faults whatever the dividend is, a NaN among them; with any other divisor
`divf` completes on every dividend, writing the result of the two operand patterns (R124, R125). That `-0.0` faults
too is D19 (log entry 20); the result is D18 (log entry 18). -/
def Obligations.DivfFaultsExactlyOnZeroDivisors : Prop :=
  ∀ (a b c : Reg) (s : State),
    (s.reg c = 0 ∨ s.reg c = 0x8000000000000000 →
      ∃ t, exec (.divf a b c) s = .next t ∧ Faults s t .fDivZero) ∧
    (s.reg c ≠ 0 → s.reg c ≠ 0x8000000000000000 →
      ∃ t, exec (.divf a b c) s = .next t ∧ WritesRegister s t a (fpResult .divf (s.reg b) (s.reg c)))

/-- What the four operations write on NaNs and infinities (R120(c), (e), (f)): with a NaN operand, and where the
operation is invalid, some NaN; else the infinity, or for a finite dividend by an infinity the zero, of the right
sign. A `divf` by a zero is not among them: it faults, whatever the dividend (R124). PRESUMED from the standard, log
entry 18; which NaN is free, log entry 19. -/
def Obligations.FloatSpecialOperands : Prop :=
  ∀ (a b c : Reg) (s : State),
    (fpIsNan (s.reg b) = true ∨ fpIsNan (s.reg c) = true →
      WritesNan (.addf a b c) s a ∧ WritesNan (.subf a b c) s a ∧ WritesNan (.mulf a b c) s a ∧
      (s.reg c ≠ 0 → s.reg c ≠ 0x8000000000000000 → WritesNan (.divf a b c) s a)) ∧
    (∀ n m, s.reg b = fpInf n → s.reg c = fpInf m →
      (n = m → Writes (.addf a b c) s a (fpInf n) ∧ WritesNan (.subf a b c) s a) ∧
      (n ≠ m → WritesNan (.addf a b c) s a ∧ Writes (.subf a b c) s a (fpInf n)) ∧
      Writes (.mulf a b c) s a (fpInf (n != m)) ∧ WritesNan (.divf a b c) s a) ∧
    (∀ n, s.reg b = fpInf n → isFinite (s.reg c) →
      Writes (.addf a b c) s a (fpInf n) ∧ Writes (.subf a b c) s a (fpInf n) ∧
      (fpMag (s.reg c) = 0 → WritesNan (.mulf a b c) s a) ∧
      (fpMag (s.reg c) ≠ 0 →
        Writes (.mulf a b c) s a (fpInf (n != (s.reg c).msb)) ∧
        Writes (.divf a b c) s a (fpInf (n != (s.reg c).msb)))) ∧
    (∀ m, isFinite (s.reg b) → s.reg c = fpInf m →
      Writes (.addf a b c) s a (fpInf m) ∧ Writes (.subf a b c) s a (fpInf (!m)) ∧
      (fpMag (s.reg b) = 0 → WritesNan (.mulf a b c) s a) ∧
      (fpMag (s.reg b) ≠ 0 → Writes (.mulf a b c) s a (fpInf ((s.reg b).msb != m))) ∧
      Writes (.divf a b c) s a (fpPattern ((s.reg b).msb != m) 0))

/-- On every operand, NaNs and infinities among them, `addf`, `subf` and `mulf` complete: the destination gets the
result of the two operand patterns and of nothing else, and nothing traps (R120(d), R126). -/
def Obligations.FloatOperationsComplete : Prop :=
  ∀ (a b c : Reg) (s : State),
    (∃ t, exec (.addf a b c) s = .next t ∧ WritesRegister s t a (fpResult .addf (s.reg b) (s.reg c))) ∧
    (∃ t, exec (.subf a b c) s = .next t ∧ WritesRegister s t a (fpResult .subf (s.reg b) (s.reg c))) ∧
    (∃ t, exec (.mulf a b c) s = .next t ∧ WritesRegister s t a (fpResult .mulf (s.reg b) (s.reg c)))

/-- The rounding itself, in whole numbers: of `num / den` units, below the overflow limit the chosen pattern is
finite, no other is nearer, and a tie goes to the pattern whose last bit is 0; from the limit on it is the
infinity (R120(a) to (c); D18, log entry 18). -/
def Obligations.RoundingIsToNearestEven : Prop :=
  ∀ num den : Nat, 0 < den →
    (num < (2 ^ 2098 - 2 ^ 2044) * den →
      fpRoundLow num den < fpInfLow ∧
      ∀ p, p < fpInfLow →
        ((lowMag (fpRoundLow num den) * den : Int) - num).natAbs ≤ ((lowMag p * den : Int) - num).natAbs ∧
        (((lowMag (fpRoundLow num den) * den : Int) - num).natAbs = ((lowMag p * den : Int) - num).natAbs →
          p ≠ fpRoundLow num den → fpRoundLow num den % 2 = 0)) ∧
    ((2 ^ 2098 - 2 ^ 2044) * den ≤ num → fpRoundLow num den = fpInfLow)

/-- A number that has a pattern rounds to that pattern (R6, `fbits(f(v)) = v` for every `v` that is not a NaN). -/
def Obligations.FloatPatternsRoundTrip : Prop :=
  ∀ v : Word, fpIsNan v = false →
    (∃ neg, fpUnpack v = .inf neg ∧ fpRound (.inf neg) = some v) ∨
    (∃ neg mag, fpUnpack v = .fin neg mag ∧ fpRound (.ratio neg mag 1) = some v)

/-- `mov_ld` and `mov_st` with the eight bytes inside memory (R130, R133): the load gives the register the eight
bytes, the store writes the eight bytes of the register, least significant first, with no alignment asked. The
address is the sum modulo 2^64 with the literal less 4096 where its bit 11 is set. The byte order is D4, the free
alignment D5, the lower limit 0 is D8 (log entries 4, 5 and 8). -/
def Obligations.LoadAndStoreComplete : Prop :=
  (∀ (base : Word) (lit : Lit), ((dataAddress base lit).toNat : Int) =
    (base.toNat + (if lit.toNat < 2048 then (lit.toNat : Int) else (lit.toNat : Int) - 4096)) % 2 ^ 64) ∧
  (∀ (a b : Reg) (lit : Lit) (s : State),
    ((dataAddress (s.reg b) lit).toNat + 8 ≤ 524288 →
      ∃ t v, exec (.movLd a b lit) s = .next t ∧ WritesRegister s t a v ∧
        ∀ k, k < 8 → v.extractLsb' (8 * k) 8 = s.mem.read ((dataAddress (s.reg b) lit).toNat + k)) ∧
    ((dataAddress (s.reg a) lit).toNat + 8 ≤ 524288 → s.mem.wf = true →
      ∃ t, exec (.movSt a b lit) s = .next t ∧
        Stores s t (dataAddress (s.reg a) lit) (s.reg b) (s.pc + 4)))

/-- `mov_ld` and `mov_st` with a byte outside memory fault with the address, writing nothing (R36, R135; the limits
are D8, log entry 8). -/
def Obligations.DataOutOfBoundsFaults : Prop :=
  ∀ (a b : Reg) (lit : Lit) (s : State),
    (524288 < (dataAddress (s.reg b) lit).toNat + 8 →
      ∃ t, exec (.movLd a b lit) s = .next t ∧ Faults s t (.dataBounds (s.reg b + lit.signExtend 64))) ∧
    (524288 < (dataAddress (s.reg a) lit).toNat + 8 →
      ∃ t, exec (.movSt a b lit) s = .next t ∧ Faults s t (.dataBounds (s.reg a + lit.signExtend 64)))

/-- `mov_rr` copies the register; `mov_hi` replaces bits 63:52 by the raw literal and keeps bits 51:0 (R131,
R132). -/
def Obligations.RegisterMoves : Prop :=
  ∀ (a b : Reg) (lit : Lit) (s : State),
    (∃ t, exec (.movRr a b) s = .next t ∧ WritesRegister s t a (s.reg b)) ∧
    (∃ t v, exec (.movHi a lit) s = .next t ∧ WritesRegister s t a v ∧
      v.toNat = lit.toNat * 2 ^ 52 + (s.reg a).toNat % 2 ^ 52)

/-- A store that succeeds, followed by a load from the same address into any register, gives that register the
stored value, aligned or not (R134): the base may be another register and the displacement another literal. -/
def Obligations.StoreThenLoadGivesTheValue : Prop :=
  ∀ (a b d e : Reg) (lit lit' : Lit) (s t : State),
    s.mem.wf = true → exec (.movSt a b lit) s = .next t → t.status = .running →
    dataAddress (s.reg e) lit' = dataAddress (s.reg a) lit →
    ∃ u, exec (.movLd d e lit') t = .next u ∧ u.reg d = s.reg b

/-- Overlapping reads after an eight-byte write see bytes (R34): the word at the address is the low half, the word
four bytes on is the high half, and an eight-byte read `k` bytes on is made of the upper bytes of the value and
the bytes after it. So a stored instruction word is what the next fetch there reads (R44; D4 and D29, log
entries 4 and 31). -/
def Obligations.ReadsAfterAStoreSeeItsBytes : Prop :=
  ∀ (s : State) (addr v : Word), s.mem.wf = true → addr.toNat + 8 ≤ 524288 →
    (s.store8 addr v).load4 addr = v.extractLsb' 0 32 ∧
    (s.store8 addr v).load4 (addr + 4) = v.extractLsb' 32 32 ∧
    (s.store8 addr v).load8 addr = v ∧
    ∀ k, 0 < k → k < 8 → ∀ j, j < 8 →
      ((s.store8 addr v).load8 (addr + BitVec.ofNat 64 k)).extractLsb' (8 * j) 8 =
        if j + k < 8 then v.extractLsb' (8 * (j + k)) 8 else s.mem.read (addr.toNat + k + j)

/-- The mode switches (R142, R143): the mode is written whatever it was, the pc advances, nothing else changes;
when the mode is already current only the pc changes (D36, log entry 33). -/
def Obligations.ModeSwitches : Prop :=
  ∀ s : State,
    (∃ t, exec .privEnterSupervisor s = .next t ∧ t.mode = .supervisor ∧ Jumps (s.setMode .supervisor) t (s.pc + 4)) ∧
    (∃ t, exec .privEnterUser s = .next t ∧ t.mode = .user ∧ Jumps (s.setMode .user) t (s.pc + 4))

/-- R173: reset is user mode; the two switches enter their mode from either mode; no other instruction changes the
mode; and no instruction is restricted by the mode or reads it: in the other mode it does the same, the mode
aside. -/
def Obligations.ModeIsTrackedNotEnforced : Prop :=
  State.reset.mode = .user ∧
  (∀ s : State, ∃ t, exec .privEnterUser s = .next t ∧ t.mode = .user) ∧
  (∀ s : State, ∃ t, exec .privEnterSupervisor s = .next t ∧ t.mode = .supervisor) ∧
  (∀ (i : Instr) (s t : State), exec i s = .next t → ¬ isModeSwitch i → t.mode = s.mode) ∧
  (∀ (i : Instr) (s : State) (m : Mode), ¬ isModeSwitch i →
    exec i (s.setMode m) = mapNext (fun t => t.setMode m) (exec i s)) ∧
  (∀ (i : Instr) (s : State) (m : Mode), isModeSwitch i → exec i (s.setMode m) = exec i s) ∧
  (∀ (s : State) (m : Mode), fetch (s.setMode m) = fetch s)

/-- The gated input (R144, R148): with the gate register zero the next item is consumed and goes to the destination;
a malformed item is consumed and faults, a closed stream faults, with no item there the machine waits; with the
gate not zero only the pc advances. The gate off is D25, the stream D26 (log entries 26 and 27). -/
def Obligations.GatedInput : Prop :=
  ∀ (a b : Reg) (s : State),
    ((s.reg b).toNat = 0 →
      (∀ v rest, s.inStream.items = .value v :: rest →
        ∃ t, exec (.privInput a b) s = .next t ∧ WritesRegister (s.setIn ⟨rest, s.inStream.ending⟩) t a v) ∧
      (∀ rest, s.inStream.items = .malformed :: rest →
        ∃ t, exec (.privInput a b) s = .next t ∧
          Faults (s.setIn ⟨rest, s.inStream.ending⟩) t (.ioError .malformed)) ∧
      (s.inStream.items = [] → s.inStream.ending = .closed →
        ∃ t, exec (.privInput a b) s = .next t ∧ Faults s t (.ioError .closed)) ∧
      (s.inStream.items = [] → s.inStream.ending = .waiting →
        exec (.privInput a b) s = .fault .inputBlocked ∧
        ∀ v, ∃ t, exec (.privInput a b) (s.setIn (s.inStream.supply (.value v))) = .next t ∧
          WritesRegister s t a v)) ∧
    ((s.reg b).toNat ≠ 0 → ∃ t, exec (.privInput a b) s = .next t ∧ Jumps s t (s.pc + 4))

/-- R165: malformed or absent input, when an input operation is reached, is an error with an exit code that is not zero;
nothing else records one: output has no error, and an input operation whose gate is not zero reads nothing and
does not fail. -/
def Obligations.OnlyAnOpenInputCanFail : Prop :=
  (∀ (a b : Reg) (s : State), s.reg b = 0 →
    ((∃ rest, s.inStream.items = .malformed :: rest) ∨ s.inStream = ⟨[], .closed⟩) →
    ∃ t reason, exec (.privInput a b) s = .next t ∧ t.status = .faulted (.ioError reason) ∧ FailedExit t) ∧
  (∀ (i : Instr) (s t : State) (reason : IoReason), s.status = .running → exec i s = .next t →
    t.status = .faulted (.ioError reason) →
    isInput i ∧ ((∃ rest, s.inStream.items = .malformed :: rest) ∨ s.inStream = ⟨[], .closed⟩)) ∧
  (∀ (a b : Reg) (s : State), ∃ t, exec (.privOutput a b) s = .next t ∧ t.status = s.status) ∧
  (∀ (a b : Reg) (s : State), s.reg b ≠ 0 →
    ∃ t, exec (.privInput a b) s = .next t ∧ t.status = s.status ∧ t.inStream = s.inStream)

/-- The gated output (R145): with the gate register not zero the value is appended to what was written, else nothing
is; the pc advances, nothing else changes. The gate off is D25 (log entry 26). -/
def Obligations.GatedOutput : Prop :=
  ∀ (a b : Reg) (s : State),
    ((s.reg a).toNat ≠ 0 → ∃ t, exec (.privOutput a b) s = .next t ∧
      t.outStream = s.outStream ++ [s.reg b] ∧ t.inStream = s.inStream ∧ t.pc = s.pc + 4 ∧
      SameRegs s t ∧ SameMemory s t ∧ t.mode = s.mode ∧ t.status = s.status) ∧
    ((s.reg a).toNat = 0 → ∃ t, exec (.privOutput a b) s = .next t ∧ Jumps s t (s.pc + 4))

/-- R146: `priv` with a literal of 5 to 4095 faults with the literal, whatever its register fields, and the run ends with
an exit code that is not zero; nothing is written and the pc stays. -/
def Obligations.UnknownPrivFaults : Prop :=
  ∀ (a b : Reg) (lit : Lit) (s : State), 5 ≤ lit.toNat →
    ∃ t, exec (.priv a b lit) s = .next t ∧ Faults s t (.unknownPriv lit) ∧ FailedExit t

/-- `priv` selects by its literal (R140): on the literals 0 to 4 the general row does what the five rows do. -/
def Obligations.PrivLiteralSelects : Prop :=
  ∀ (a b : Reg) (s : State),
    exec (.priv a b 0) s = exec .privHalt s ∧
    exec (.priv a b 1) s = exec .privEnterSupervisor s ∧
    exec (.priv a b 2) s = exec .privEnterUser s ∧
    exec (.priv a b 3) s = exec (.privInput a b) s ∧
    exec (.priv a b 4) s = exec (.privOutput a b) s

/-! ### Whole-machine rules -/

/-- Which register an instruction writes (R13): a register that reads differently afterwards is the instruction's
destination; register 31 is written only where it is named (R12). That `call` and `return` do not move it is D10
(log entry 10). -/
def Obligations.OnlyTheDestinationRegisterChanges : Prop :=
  ∀ (i : Instr) (s t : State) (r : Reg), exec i s = .next t → t.reg r ≠ s.reg r → destination i = some r

/-- R43: memory is never changed except by `mov_st` and `call`, and by these only in the eight bytes at the address
they compute; a load changes no byte, whatever the address, and may be repeated, into the same register or another:
a load from the same address completes and gives the same value. That the slot of `call` is where it is, is D10 (log
entry 10). -/
def Obligations.OnlyStoresChangeMemory : Prop :=
  (∀ (i : Instr) (s t : State), exec i s = .next t → storeAddress i s = none → SameMemory s t) ∧
  (∀ (i : Instr) (s t : State) (addr : Word), exec i s = .next t → storeAddress i s = some addr →
    ∀ a : Nat, a < addr.toNat ∨ addr.toNat + 8 ≤ a → t.mem.read a = s.mem.read a) ∧
  (∀ (a b d e : Reg) (lit lit' : Lit) (s t : State), exec (.movLd a b lit) s = .next t → t.status = .running →
    dataAddress (t.reg e) lit' = dataAddress (s.reg b) lit →
    ∃ u, exec (.movLd d e lit') t = .next u ∧ u.reg d = t.reg a ∧ SameMemory s u)

/-- What was written stays written (R23): the output stream grows by the one value of an output whose gate is not
zero, or not at all. -/
def Obligations.OutputOnlyGrows : Prop :=
  ∀ (i : Instr) (s t : State), exec i s = .next t →
    t.outStream = s.outStream ∨
    ∃ a b, (i = .privOutput a b ∨ i = .priv a b 4) ∧ s.reg a ≠ 0 ∧ t.outStream = s.outStream ++ [s.reg b]

/-- The input matters to the input operation alone (R22, R155): any other instruction does the same whatever the
stream holds and leaves it as it is; the input operation consumes at most the front item. -/
def Obligations.InputMattersOnlyToInput : Prop :=
  (∀ (i : Instr) (s : State) (x : InStream), ¬ isInput i →
    exec i (s.setIn x) = mapNext (fun t => t.setIn x) (exec i s)) ∧
  (∀ (i : Instr) (s t : State), exec i s = .next t →
    t.inStream = s.inStream ∨
    (isInput i ∧ ∃ item, s.inStream = ⟨item :: t.inStream.items, t.inStream.ending⟩))

/-- The text of the output (R23): the text of one value is its unsigned decimal numeral without leading zeros, 0 giving
`0`, and the text of several is these one after the other, without separators (D27, log entry 29). -/
def Obligations.OutputTextConcatenates : Prop :=
  outText [] = "" ∧ outText [0] = "0" ∧ outText [1, 23] = "123" ∧
  (∀ v : Word, IsNumeral (outText [v]) v.toNat) ∧
  ∀ (vs ws : List Word), outText (vs ++ ws) = outText vs ++ outText ws

/-- The invariant every step keeps, from every state that has it: memory stays in canonical form and inside its
bounds, and a state that stops records a stop its own instruction makes. -/
def Obligations.StepKeepsTheInvariant : Prop :=
  ∀ s t : State, Inv s → step s = .next t → Inv t

/-- The invariant holds at reset. -/
def Obligations.ResetHasTheInvariant : Prop := Inv State.reset

/-- The invariant holds of the reset state of every image that fits, whatever the input (R191, R193). -/
def Obligations.BootHasTheInvariant : Prop :=
  ∀ (image : List IWord) (input : InStream) (s : State), boot image input = .ready s → Inv s

/-- The placing of an instruction word at the pc (log entry 37) makes the very next step run it. -/
def Obligations.PlacedWordRunsNext : Prop :=
  ∀ (s : State) (w : Nat) (i : Instr), s.mem.wf = true → s.status = .running → s.pc.toNat + 4 ≤ 524288 →
    decodeTableWord 32 w = some i → step (s.withFetchWord 32 w) = exec i (s.withFetchWord 32 w)
end

