-- ==== Sys2Proof/Laws/Decode.lean ====
section
/-! SUPPORT. The parts of the encoder's and the decoder's agreement that the opcode map and the fields have. -/

namespace Sys2Proof

/-- An operation's number selects it (R55, R56). -/
@[simp] theorem opOfNumber_numberOfOp (o : Op) : opOfNumber (numberOfOp o) = some o := by
  cases o <;> decide

/-- An operation's number fits the 5-bit field. -/
@[simp] theorem opBits_toNat (o : Op) : (opBits o).toNat = numberOfOp o := by
  cases o <;> decide

/-- The opcode field of the word of some fields. -/
theorem decodeFields_encodeFields_op (f : Fields) : (decodeFields (encodeFields f)).op = f.op := by
  obtain ⟨o, a, b, c, l⟩ := f
  simp only [decodeFields, encodeFields]
  ext k hk
  simp only [BitVec.getElem_extractLsb', BitVec.getLsbD_append]
  simp [show ¬ (27 + k < 12) by omega, show ¬ (27 + k - 12 < 5) by omega, show ¬ (27 + k - 12 - 5 < 5) by omega,
    show ¬ (27 + k - 12 - 5 - 5 < 5) by omega, show 27 + k - 12 - 5 - 5 - 5 = k by omega,
    BitVec.getLsbD_eq_getElem hk]

/-- The operation an instruction belongs to; the five sub-operations belong to `priv` (R58). -/
def Instr.op (i : Instr) : Op :=
  match i with
  | .and _ _ _ => .and
  | .or _ _ _ => .or
  | .xor _ _ _ => .xor
  | .not _ _ => .not
  | .shftr _ _ _ => .shftr
  | .shftri _ _ => .shftri
  | .shftl _ _ _ => .shftl
  | .shftli _ _ => .shftli
  | .br _ => .br
  | .brr1 _ => .brr1
  | .brr2 _ => .brr2
  | .brnz _ _ => .brnz
  | .call _ => .call
  | .ret => .ret
  | .brgt _ _ _ => .brgt
  | .priv _ _ _ => .priv
  | .movLd _ _ _ => .movLd
  | .movRr _ _ => .movRr
  | .movHi _ _ => .movHi
  | .movSt _ _ _ => .movSt
  | .addf _ _ _ => .addf
  | .subf _ _ _ => .subf
  | .mulf _ _ _ => .mulf
  | .divf _ _ _ => .divf
  | .add _ _ _ => .add
  | .addi _ _ => .addi
  | .sub _ _ _ => .sub
  | .subi _ _ => .subi
  | .mul _ _ _ => .mul
  | .div _ _ _ => .div
  | .privHalt => .priv
  | .privEnterSupervisor => .priv
  | .privEnterUser => .priv
  | .privInput _ _ => .priv
  | .privOutput _ _ => .priv

end Sys2Proof
end

