-- ==== Sys2Proof/Laws/Float.lean ====
section
/-! SUPPORT. How the patterns of infinities, of finite numbers and of the free NaN are read (R120). -/

namespace Sys2Proof.Machine

/-- An infinity reads as one. -/
@[simp] theorem fpUnpack_fpInf (neg : Bool) : fpUnpack (fpInf neg) = .inf neg := by
  cases neg <;> decide

/-- A pattern whose exponent is not 0x7FF reads as its sign and magnitude. -/
theorem fpUnpack_of_finite (w : Word) (h : fpExp w ≠ 2047) : fpUnpack w = .fin w.msb (fpMag w) := by
  unfold fpUnpack
  rw [if_neg h]

/-- The fields of a pattern put together from a sign and 63 bits. -/
theorem fpPattern_toNat (neg : Bool) (low : Nat) (h : low < 2 ^ 63) :
    (fpPattern neg low).toNat = neg.toNat * 2 ^ 63 + low := by
  unfold fpPattern
  rw [BitVec.toNat_append, BitVec.toNat_ofNat, Nat.mod_eq_of_lt h, ← Nat.shiftLeft_add_eq_or_of_lt h,
    Nat.shiftLeft_eq, BitVec.toNat_ofBool]

theorem fpExp_fpPattern (neg : Bool) (low : Nat) (h : low < 2 ^ 63) : fpExp (fpPattern neg low) = low / 2 ^ 52 := by
  unfold fpExp
  rw [BitVec.extractLsb'_toNat, fpPattern_toNat neg low h, Nat.shiftRight_eq_div_pow]
  cases neg <;> simp only [Bool.toNat_false, Bool.toNat_true] <;> omega

theorem fpFrac_fpPattern (neg : Bool) (low : Nat) (h : low < 2 ^ 63) : fpFrac (fpPattern neg low) = low % 2 ^ 52 := by
  unfold fpFrac
  rw [BitVec.extractLsb'_toNat, fpPattern_toNat neg low h, Nat.shiftRight_eq_div_pow]
  cases neg <;> simp only [Bool.toNat_false, Bool.toNat_true] <;> omega

/-- Whatever the free value is, the pattern of a NaN result is some NaN (R120(e), U4). -/
theorem fpNanPattern_isNan (op : FpOp) (x y : Word) : fpIsNan (fpNanPattern op x y) = true := by
  have hk := (Config.fpNan op x y).2.isLt
  unfold fpNanPattern fpIsNan fpUnpack
  generalize (Config.fpNan op x y).2.val = k at *
  have hl : fpInfLow + k + 1 < 2 ^ 63 := by unfold fpInfLow; omega
  rw [fpExp_fpPattern _ _ hl, fpFrac_fpPattern _ _ hl, if_pos (by unfold fpInfLow; omega),
    if_neg (by unfold fpInfLow; omega)]
  rfl

/-- A pattern of magnitude 0 is one of the two zeros. -/
theorem eq_zero_of_fpMag (w : Word) (hm : fpMag w = 0) : w = 0 ∨ w = 0x8000000000000000 := by
  have e1 : w.toNat / 2 ^ 52 % 2048 = fpExp w := by
    unfold fpExp
    rw [BitVec.extractLsb'_toNat, Nat.shiftRight_eq_div_pow]
  have e2 : w.toNat % 2 ^ 52 = fpFrac w := by
    unfold fpFrac
    rw [BitVec.extractLsb'_toNat, Nat.shiftRight_eq_div_pow, Nat.pow_zero, Nat.div_one]
  have hl := w.isLt
  unfold fpMag at hm
  split at hm
  · have hz : w.toNat = 0 ∨ w.toNat = 2 ^ 63 := by omega
    exact hz.imp (fun h => BitVec.eq_of_toNat_eq h) (fun h => BitVec.eq_of_toNat_eq h)
  · have hp := Nat.mul_pos (show 0 < 2 ^ 52 + fpFrac w by omega) (Nat.two_pow_pos (fpExp w - 1))
    omega

/-- The zero test of `divf` is true of the two zero patterns alone (R125; D19, log entry 20). -/
theorem fpIsZero_of_ne (w : Word) (h : w ≠ 0) (hn : w ≠ 0x8000000000000000) : fpIsZero w = false := by
  unfold fpIsZero fpUnpack
  by_cases he : fpExp w = 2047
  · rw [if_pos he]
    by_cases hf : fpFrac w = 0
    · rw [if_pos hf]
    · rw [if_neg hf]
  · rw [if_neg he]
    exact beq_eq_false_iff_ne.mpr fun hm => (eq_zero_of_fpMag w hm).elim h hn

/-- What an operation writes: the rounded exact result, or the free NaN. -/
theorem fpResult_cases (op : FpOp) (x y : Word) :
    (∃ r, fpRound (fpExact op (fpUnpack x) (fpUnpack y)) = some r ∧ fpResult op x y = r) ∨
    (fpExact op (fpUnpack x) (fpUnpack y) = .nan ∧ fpResult op x y = fpNanPattern op x y) := by
  unfold fpResult
  cases h : fpExact op (fpUnpack x) (fpUnpack y) with
  | nan => exact .inr ⟨rfl, rfl⟩
  | inf neg => exact .inl ⟨_, rfl, rfl⟩
  | ratio neg num den => exact .inl ⟨_, rfl, rfl⟩

end Sys2Proof.Machine
end

