-- ==== Sys2Proof/Laws/Memory.lean ====
section
/-! SUPPORT. Memory: what a byte reads after a write, and that every operation keeps the canonical form and the
bounds; bytes and numbers. -/

namespace Sys2Proof.Machine

/-! ### Bytes and numbers -/

@[simp] theorem leBytes_length (n v : Nat) : (leBytes n v).length = n := by
  induction n generalizing v with
  | zero => rfl
  | succ n ih => simp [leBytes, ih]

/-- The value of the low `n` bytes of a number is the number modulo `256^n`. -/
theorem leValue_leBytes (n v : Nat) : leValue (leBytes n v) = v % 256 ^ n := by
  induction n generalizing v with
  | zero => simp [leBytes, leValue, Nat.mod_one]
  | succ n ih =>
    simp only [leBytes, leValue, ih, BitVec.toNat_ofNat, Nat.reducePow]
    rw [Nat.pow_succ', Nat.mod_mul]

/-- `n` bytes make a number below `256^n`. -/
theorem leValue_lt (bs : List Byte) : leValue bs < 256 ^ bs.length := by
  induction bs with
  | nil => simp [leValue]
  | cons b bs ih =>
    have hb := b.isLt
    simp only [leValue, List.length_cons, Nat.pow_succ']
    omega

/-- The bytes of the value of a list of bytes are the list. -/
theorem leBytes_leValue (bs : List Byte) : leBytes bs.length (leValue bs) = bs := by
  induction bs with
  | nil => rfl
  | cons b bs ih =>
    have hb := b.isLt
    have hd : (b.toNat + 256 * leValue bs) / 256 = leValue bs := by omega
    have hm : BitVec.ofNat 8 (b.toNat + 256 * leValue bs) = b := by
      apply BitVec.eq_of_toNat_eq
      simp only [BitVec.toNat_ofNat, Nat.reducePow]
      omega
    simp [leBytes, leValue, hd, hm, ih]

/-- Byte `k` of a number. -/
theorem leBytes_getElem (n v k : Nat) (h : k < (leBytes n v).length) :
    (leBytes n v)[k] = BitVec.ofNat 8 (v / 256 ^ k) := by
  induction n generalizing v k with
  | zero => simp [leBytes] at h
  | succ n ih =>
    cases k with
    | zero => simp [leBytes]
    | succ k => simp [leBytes, ih, Nat.div_div_eq_div_mul, Nat.pow_succ']

/-! ### One byte -/

/-- A list whose addresses all lie above one reads there as reset left it. -/
theorem Memory.read_of_above (m : Memory) (addr : Nat) (h : m.all (fun cell => decide (addr < cell.1)) = true) :
    m.read addr = blankByte := by
  induction m with
  | nil => rfl
  | cons cell rest ih =>
    obtain ⟨a, v⟩ := cell
    simp only [List.all_cons, Bool.and_eq_true, decide_eq_true_eq] at h
    simp [Memory.read, Nat.ne_of_gt h.1, ih h.2]

theorem Memory.read_cons (addr : Nat) (v : Byte) (rest : Memory) (a : Nat)
    (h : rest.all (fun cell => decide (addr < cell.1)) = true) :
    (Memory.cons addr v rest).read a = if a = addr then v else rest.read a := by
  unfold Memory.cons
  by_cases hv : v = blankByte
  · by_cases ha : a = addr
    · subst ha; simp [hv, Memory.read_of_above rest a h]
    · simp [hv, ha]
  · by_cases ha : a = addr
    · subst ha; simp [hv, Memory.read]
    · simp [hv, Memory.read, ha, Ne.symm ha]

/-- What a canonical memory reads after a byte was written. -/
theorem Memory.read_write (m : Memory) (addr : Nat) (v : Byte) (a : Nat) (h : m.wf = true) :
    (m.write addr v).read a = if a = addr then v else m.read a := by
  induction m with
  | nil => exact Memory.read_cons addr v [] a rfl
  | cons cell rest ih =>
    obtain ⟨b, u⟩ := cell
    simp only [Memory.wf, Bool.and_eq_true] at h
    obtain ⟨⟨-, habove⟩, hrest⟩ := h
    unfold Memory.write
    by_cases h1 : addr < b
    · rw [if_pos h1, Memory.read_cons]
      simp only [List.all_cons, Bool.and_eq_true, decide_eq_true_eq, List.all_eq_true] at habove ⊢
      exact ⟨h1, fun c hc => Nat.lt_trans h1 (habove c hc)⟩
    · rw [if_neg h1]
      by_cases h2 : addr = b
      · subst h2
        rw [if_pos rfl, Memory.read_cons _ _ _ _ habove]
        by_cases ha : a = addr
        · simp [ha]
        · simp [ha, Memory.read, Ne.symm ha]
      · rw [if_neg h2]
        by_cases ha : b = a
        · subst ha; simp [Memory.read, Ne.symm h2]
        · simp [Memory.read, ha, ih hrest]

/-! ### The canonical form and the bounds -/

/-- A write leaves the addresses above a bound above it, if the written one is. -/
theorem Memory.write_above (m : Memory) (addr : Nat) (v : Byte) (low : Nat) (hl : low < addr)
    (h : m.all (fun cell => decide (low < cell.1)) = true) :
    (m.write addr v).all (fun cell => decide (low < cell.1)) = true := by
  induction m with
  | nil => simp only [Memory.write, Memory.cons]; split <;> simp [hl]
  | cons cell rest ih =>
    obtain ⟨b, u⟩ := cell
    simp only [List.all_cons, Bool.and_eq_true, decide_eq_true_eq] at h
    unfold Memory.write Memory.cons
    split
    · split <;> simp [hl, h.1]; all_goals simpa using h.2
    · split
      · split <;> simp [hl]; all_goals simpa using h.2
      · simpa [h.1] using ih h.2

/-- Writing a byte keeps the canonical form. -/
theorem Memory.write_wf (m : Memory) (addr : Nat) (v : Byte) (h : m.wf = true) : (m.write addr v).wf = true := by
  induction m with
  | nil => simp only [Memory.write, Memory.cons]; split <;> simp_all [Memory.wf]
  | cons cell rest ih =>
    obtain ⟨b, u⟩ := cell
    have h' := h
    simp only [Memory.wf, Bool.and_eq_true] at h
    obtain ⟨⟨hu, habove⟩, hrest⟩ := h
    unfold Memory.write Memory.cons
    split
    · rename_i hlt
      split
      · exact h'
      · rename_i hv
        simp only [Memory.wf, Bool.and_eq_true, List.all_cons, decide_eq_true_eq, List.all_eq_true] at habove ⊢
        exact ⟨⟨by simp [hv], hlt, fun c hc => Nat.lt_trans hlt (habove c hc)⟩, ⟨hu, habove⟩, hrest⟩
    · split
      · rename_i heq
        subst heq
        split
        · exact hrest
        · rename_i hv
          simp only [Memory.wf, Bool.and_eq_true]
          exact ⟨⟨by simp [hv], habove⟩, hrest⟩
      · simp only [Memory.wf, Bool.and_eq_true]
        exact ⟨⟨hu, Memory.write_above rest addr v b (by omega) habove⟩, ih hrest⟩

/-- Writing a byte inside the bounds keeps the bounds. -/
theorem Memory.write_within (m : Memory) (addr : Nat) (v : Byte) (size : Nat) (ha : addr < size)
    (h : m.within size = true) : (m.write addr v).within size = true := by
  induction m with
  | nil => simp only [Memory.write, Memory.cons]; split <;> simp [Memory.within, ha]
  | cons cell rest ih =>
    obtain ⟨b, u⟩ := cell
    simp only [Memory.within, List.all_cons, Bool.and_eq_true, decide_eq_true_eq] at h ih ⊢
    unfold Memory.write Memory.cons
    split
    · split <;> simp [h.1, ha]; all_goals simpa using h.2
    · split
      · split <;> simp [ha]; all_goals simpa using h.2
      · simpa [h.1] using ih h.2

/-! ### Several bytes -/

theorem Memory.writeBytes_wf (m : Memory) (addr : Nat) (bs : List Byte) (h : m.wf = true) :
    (m.writeBytes addr bs).wf = true := by
  induction bs generalizing m addr with
  | nil => exact h
  | cons b bs ih => exact ih _ _ (Memory.write_wf m addr b h)

theorem Memory.writeBytes_within (m : Memory) (addr : Nat) (bs : List Byte) (size : Nat)
    (ha : addr + bs.length ≤ size) (h : m.within size = true) : (m.writeBytes addr bs).within size = true := by
  induction bs generalizing m addr with
  | nil => exact h
  | cons b bs ih =>
    simp only [List.length_cons] at ha
    exact ih _ _ (by omega) (Memory.write_within m addr b size (by omega) h)

/-- What a canonical memory reads after bytes were written: the written byte inside, the old one outside. -/
theorem Memory.read_writeBytes (m : Memory) (addr : Nat) (bs : List Byte) (a : Nat) (h : m.wf = true) :
    (m.writeBytes addr bs).read a =
      if hb : addr ≤ a ∧ a < addr + bs.length then bs[a - addr] else m.read a := by
  induction bs generalizing m addr with
  | nil =>
    have : ¬ (addr ≤ a ∧ a < addr + ([] : List Byte).length) := by simp only [List.length_nil]; omega
    rw [dif_neg this]; rfl
  | cons b bs ih =>
    simp only [Memory.writeBytes, ih _ _ (Memory.write_wf m addr b h), Memory.read_write _ _ _ _ h,
      List.length_cons]
    by_cases h1 : a = addr
    · subst h1; simp
    · by_cases h2 : addr + 1 ≤ a ∧ a < addr + 1 + bs.length
      · have h3 : addr ≤ a ∧ a < addr + (bs.length + 1) := by omega
        have h4 : a - addr = (a - (addr + 1)) + 1 := by omega
        simp [h2, h3, h4]
      · have h3 : ¬ (addr ≤ a ∧ a < addr + (bs.length + 1)) := by omega
        rw [dif_neg h2, dif_neg h3, if_neg h1]

@[simp] theorem Memory.readBytes_length (m : Memory) (addr n : Nat) : (m.readBytes addr n).length = n := by
  induction n generalizing addr with
  | zero => rfl
  | succ n ih => simp [Memory.readBytes, ih]

theorem Memory.readBytes_getElem (m : Memory) (addr n k : Nat) (h : k < (m.readBytes addr n).length) :
    (m.readBytes addr n)[k] = m.read (addr + k) := by
  induction n generalizing addr k with
  | zero => simp [Memory.readBytes] at h
  | succ n ih =>
    cases k with
    | zero => simp [Memory.readBytes]
    | succ k => simp only [Memory.readBytes, List.getElem_cons_succ, ih]; congr 1; omega

/-- Two memories that agree on the bytes read give the same number. -/
theorem Memory.readNum_congr (m m' : Memory) (addr n : Nat)
    (h : ∀ k, k < n → m.read (addr + k) = m'.read (addr + k)) : m.readNum addr n = m'.readNum addr n := by
  unfold Memory.readNum
  congr 1
  apply List.ext_getElem (by simp)
  intro k hk _
  rw [Memory.readBytes_getElem, Memory.readBytes_getElem]
  exact h k (by simpa using hk)

theorem Memory.readNum_lt (m : Memory) (addr n : Nat) : m.readNum addr n < 256 ^ n := by
  simpa [Memory.readNum] using leValue_lt (m.readBytes addr n)

/-- The four memory operations of a program and of the loader keep the canonical form. -/
theorem Memory.writeNum_wf (m : Memory) (addr n v : Nat) (h : m.wf = true) : (m.writeNum addr n v).wf = true :=
  Memory.writeBytes_wf m addr _ h

theorem Memory.writeNum_within (m : Memory) (addr n v size : Nat) (ha : addr + n ≤ size)
    (h : m.within size = true) : (m.writeNum addr n v).within size = true :=
  Memory.writeBytes_within m addr _ size (by simpa using ha) h

theorem Memory.writeWord_wf (m : Memory) (addr : Nat) (w : IWord) (h : m.wf = true) :
    (m.writeWord addr w).wf = true :=
  Memory.writeNum_wf m addr _ _ h

theorem Memory.loadImage_wf (m : Memory) (addr : Nat) (image : List IWord) (h : m.wf = true) :
    (m.loadImage addr image).wf = true := by
  induction image generalizing m addr with
  | nil => exact h
  | cons w ws ih => exact ih _ _ (Memory.writeWord_wf m addr w h)

/-- The memory at reset is in canonical form and in bounds. -/
theorem State.reset_mem_wf : State.reset.mem.wf = true ∧ State.reset.mem.within memSize = true := by decide

end Sys2Proof.Machine
end

