-- ==== Sys2Proof/Laws/State.lean ====
section
/-! SUPPORT. One lemma for each field of the state under each update, and the reads of registers and of the slot
under each update, so that no proof unfolds a record update. -/

namespace Sys2Proof.Machine

/-! ### setReg -/

@[simp] theorem State.setReg_regs (s : State) (i : Reg) (v : Word) : (s.setReg i v).regs = s.regs.set i v := rfl
@[simp] theorem State.setReg_pc (s : State) (i : Reg) (v : Word) : (s.setReg i v).pc = s.pc := rfl
@[simp] theorem State.setReg_mode (s : State) (i : Reg) (v : Word) : (s.setReg i v).mode = s.mode := rfl
@[simp] theorem State.setReg_status (s : State) (i : Reg) (v : Word) : (s.setReg i v).status = s.status := rfl
@[simp] theorem State.setReg_mem (s : State) (i : Reg) (v : Word) : (s.setReg i v).mem = s.mem := rfl
@[simp] theorem State.setReg_inStream (s : State) (i : Reg) (v : Word) : (s.setReg i v).inStream = s.inStream := rfl
@[simp] theorem State.setReg_outStream (s : State) (i : Reg) (v : Word) : (s.setReg i v).outStream = s.outStream := rfl

/-! ### setPc -/

@[simp] theorem State.setPc_regs (s : State) (p : Word) : (s.setPc p).regs = s.regs := rfl
@[simp] theorem State.setPc_pc (s : State) (p : Word) : (s.setPc p).pc = p := rfl
@[simp] theorem State.setPc_mode (s : State) (p : Word) : (s.setPc p).mode = s.mode := rfl
@[simp] theorem State.setPc_status (s : State) (p : Word) : (s.setPc p).status = s.status := rfl
@[simp] theorem State.setPc_mem (s : State) (p : Word) : (s.setPc p).mem = s.mem := rfl
@[simp] theorem State.setPc_inStream (s : State) (p : Word) : (s.setPc p).inStream = s.inStream := rfl
@[simp] theorem State.setPc_outStream (s : State) (p : Word) : (s.setPc p).outStream = s.outStream := rfl
@[simp] theorem State.setPc_reg (s : State) (p : Word) (r : Reg) : (s.setPc p).reg r = s.reg r := rfl
@[simp] theorem State.setPc_slot (s : State) (p : Word) : (s.setPc p).slot = s.slot := rfl

/-! ### setMode -/

@[simp] theorem State.setMode_regs (s : State) (m : Mode) : (s.setMode m).regs = s.regs := rfl
@[simp] theorem State.setMode_pc (s : State) (m : Mode) : (s.setMode m).pc = s.pc := rfl
@[simp] theorem State.setMode_mode (s : State) (m : Mode) : (s.setMode m).mode = m := rfl
@[simp] theorem State.setMode_status (s : State) (m : Mode) : (s.setMode m).status = s.status := rfl
@[simp] theorem State.setMode_mem (s : State) (m : Mode) : (s.setMode m).mem = s.mem := rfl
@[simp] theorem State.setMode_inStream (s : State) (m : Mode) : (s.setMode m).inStream = s.inStream := rfl
@[simp] theorem State.setMode_outStream (s : State) (m : Mode) : (s.setMode m).outStream = s.outStream := rfl
@[simp] theorem State.setMode_reg (s : State) (m : Mode) (r : Reg) : (s.setMode m).reg r = s.reg r := rfl
@[simp] theorem State.setMode_slot (s : State) (m : Mode) : (s.setMode m).slot = s.slot := rfl

/-! ### setStatus -/

@[simp] theorem State.setStatus_regs (s : State) (st : Status) : (s.setStatus st).regs = s.regs := rfl
@[simp] theorem State.setStatus_pc (s : State) (st : Status) : (s.setStatus st).pc = s.pc := rfl
@[simp] theorem State.setStatus_mode (s : State) (st : Status) : (s.setStatus st).mode = s.mode := rfl
@[simp] theorem State.setStatus_status (s : State) (st : Status) : (s.setStatus st).status = st := rfl
@[simp] theorem State.setStatus_mem (s : State) (st : Status) : (s.setStatus st).mem = s.mem := rfl
@[simp] theorem State.setStatus_inStream (s : State) (st : Status) : (s.setStatus st).inStream = s.inStream := rfl
@[simp] theorem State.setStatus_outStream (s : State) (st : Status) : (s.setStatus st).outStream = s.outStream := rfl
@[simp] theorem State.setStatus_reg (s : State) (st : Status) (r : Reg) : (s.setStatus st).reg r = s.reg r := rfl
@[simp] theorem State.setStatus_slot (s : State) (st : Status) : (s.setStatus st).slot = s.slot := rfl

/-! ### setMem -/

@[simp] theorem State.setMem_regs (s : State) (m : Memory) : (s.setMem m).regs = s.regs := rfl
@[simp] theorem State.setMem_pc (s : State) (m : Memory) : (s.setMem m).pc = s.pc := rfl
@[simp] theorem State.setMem_mode (s : State) (m : Memory) : (s.setMem m).mode = s.mode := rfl
@[simp] theorem State.setMem_status (s : State) (m : Memory) : (s.setMem m).status = s.status := rfl
@[simp] theorem State.setMem_mem (s : State) (m : Memory) : (s.setMem m).mem = m := rfl
@[simp] theorem State.setMem_inStream (s : State) (m : Memory) : (s.setMem m).inStream = s.inStream := rfl
@[simp] theorem State.setMem_outStream (s : State) (m : Memory) : (s.setMem m).outStream = s.outStream := rfl
@[simp] theorem State.setMem_reg (s : State) (m : Memory) (r : Reg) : (s.setMem m).reg r = s.reg r := rfl
@[simp] theorem State.setMem_slot (s : State) (m : Memory) : (s.setMem m).slot = s.slot := rfl

/-! ### setIn -/

@[simp] theorem State.setIn_regs (s : State) (x : InStream) : (s.setIn x).regs = s.regs := rfl
@[simp] theorem State.setIn_pc (s : State) (x : InStream) : (s.setIn x).pc = s.pc := rfl
@[simp] theorem State.setIn_mode (s : State) (x : InStream) : (s.setIn x).mode = s.mode := rfl
@[simp] theorem State.setIn_status (s : State) (x : InStream) : (s.setIn x).status = s.status := rfl
@[simp] theorem State.setIn_mem (s : State) (x : InStream) : (s.setIn x).mem = s.mem := rfl
@[simp] theorem State.setIn_inStream (s : State) (x : InStream) : (s.setIn x).inStream = x := rfl
@[simp] theorem State.setIn_outStream (s : State) (x : InStream) : (s.setIn x).outStream = s.outStream := rfl
@[simp] theorem State.setIn_reg (s : State) (x : InStream) (r : Reg) : (s.setIn x).reg r = s.reg r := rfl
@[simp] theorem State.setIn_slot (s : State) (x : InStream) : (s.setIn x).slot = s.slot := rfl

/-! ### setOut -/

@[simp] theorem State.setOut_regs (s : State) (vs : List Word) : (s.setOut vs).regs = s.regs := rfl
@[simp] theorem State.setOut_pc (s : State) (vs : List Word) : (s.setOut vs).pc = s.pc := rfl
@[simp] theorem State.setOut_mode (s : State) (vs : List Word) : (s.setOut vs).mode = s.mode := rfl
@[simp] theorem State.setOut_status (s : State) (vs : List Word) : (s.setOut vs).status = s.status := rfl
@[simp] theorem State.setOut_mem (s : State) (vs : List Word) : (s.setOut vs).mem = s.mem := rfl
@[simp] theorem State.setOut_inStream (s : State) (vs : List Word) : (s.setOut vs).inStream = s.inStream := rfl
@[simp] theorem State.setOut_outStream (s : State) (vs : List Word) : (s.setOut vs).outStream = vs := rfl
@[simp] theorem State.setOut_reg (s : State) (vs : List Word) (r : Reg) : (s.setOut vs).reg r = s.reg r := rfl
@[simp] theorem State.setOut_slot (s : State) (vs : List Word) : (s.setOut vs).slot = s.slot := rfl

/-! ### out -/

@[simp] theorem State.out_regs (s : State) (v : Word) : (s.out v).regs = s.regs := rfl
@[simp] theorem State.out_pc (s : State) (v : Word) : (s.out v).pc = s.pc := rfl
@[simp] theorem State.out_mode (s : State) (v : Word) : (s.out v).mode = s.mode := rfl
@[simp] theorem State.out_status (s : State) (v : Word) : (s.out v).status = s.status := rfl
@[simp] theorem State.out_mem (s : State) (v : Word) : (s.out v).mem = s.mem := rfl
@[simp] theorem State.out_inStream (s : State) (v : Word) : (s.out v).inStream = s.inStream := rfl
@[simp] theorem State.out_outStream (s : State) (v : Word) : (s.out v).outStream = s.outStream ++ [v] := rfl
@[simp] theorem State.out_reg (s : State) (v : Word) (r : Reg) : (s.out v).reg r = s.reg r := rfl
@[simp] theorem State.out_slot (s : State) (v : Word) : (s.out v).slot = s.slot := rfl

/-! ### advance -/

@[simp] theorem State.advance_regs (s : State) : s.advance.regs = s.regs := rfl
@[simp] theorem State.advance_pc (s : State) : s.advance.pc = s.nextPc := rfl
@[simp] theorem State.advance_mode (s : State) : s.advance.mode = s.mode := rfl
@[simp] theorem State.advance_status (s : State) : s.advance.status = s.status := rfl
@[simp] theorem State.advance_mem (s : State) : s.advance.mem = s.mem := rfl
@[simp] theorem State.advance_inStream (s : State) : s.advance.inStream = s.inStream := rfl
@[simp] theorem State.advance_outStream (s : State) : s.advance.outStream = s.outStream := rfl
@[simp] theorem State.advance_reg (s : State) (r : Reg) : s.advance.reg r = s.reg r := rfl
@[simp] theorem State.advance_slot (s : State) : s.advance.slot = s.slot := rfl

/-! ### store8 -/

@[simp] theorem State.store8_regs (s : State) (addr v : Word) : (s.store8 addr v).regs = s.regs := rfl
@[simp] theorem State.store8_pc (s : State) (addr v : Word) : (s.store8 addr v).pc = s.pc := rfl
@[simp] theorem State.store8_mode (s : State) (addr v : Word) : (s.store8 addr v).mode = s.mode := rfl
@[simp] theorem State.store8_status (s : State) (addr v : Word) : (s.store8 addr v).status = s.status := rfl
@[simp] theorem State.store8_mem (s : State) (addr v : Word) : (s.store8 addr v).mem = s.mem.writeNum addr.toNat Config.dlen v.toNat := rfl
@[simp] theorem State.store8_inStream (s : State) (addr v : Word) : (s.store8 addr v).inStream = s.inStream := rfl
@[simp] theorem State.store8_outStream (s : State) (addr v : Word) : (s.store8 addr v).outStream = s.outStream := rfl
@[simp] theorem State.store8_reg (s : State) (addr v : Word) (r : Reg) : (s.store8 addr v).reg r = s.reg r := rfl
@[simp] theorem State.store8_slot (s : State) (addr v : Word) : (s.store8 addr v).slot = s.slot := rfl

/-- What a register reads after a register was written: no register is hardwired (R12). -/
theorem State.setReg_reg (s : State) (i r : Reg) (v : Word) :
    (s.setReg i v).reg r = if r = i then v else s.reg r := by
  simp only [State.reg, State.setReg, Fin.getElem_fin, Vector.getElem_set, Fin.ext_iff, eq_comm]

@[simp] theorem State.setReg_reg_same (s : State) (i : Reg) (v : Word) : (s.setReg i v).reg i = v := by
  simp [State.setReg_reg]

theorem State.setReg_reg_other (s : State) (i r : Reg) (v : Word) (h : r ≠ i) :
    (s.setReg i v).reg r = s.reg r := by
  simp [State.setReg_reg, h]

/-- The default advance adds 4 (R8). -/
theorem State.nextPc_eq (s : State) : s.nextPc = s.pc + 4 := rfl

/-- A run status put back to what it was. -/
@[simp] theorem State.setStatus_status_self (s : State) : s.setStatus s.status = s := rfl

@[simp] theorem State.setStatus_setStatus (s : State) (x y : Status) :
    (s.setStatus x).setStatus y = s.setStatus y := rfl

@[simp] theorem State.setOut_outStream_self (s : State) : s.setOut s.outStream = s := rfl

@[simp] theorem State.setIn_inStream_self (s : State) : s.setIn s.inStream = s := rfl

/-- Two states are equal when their fields are. -/
theorem State.eq_of_fields (s t : State) (h1 : s.regs = t.regs) (h2 : s.pc = t.pc) (h3 : s.mode = t.mode)
    (h4 : s.status = t.status) (h5 : s.mem = t.mem) (h6 : s.inStream = t.inStream)
    (h7 : s.outStream = t.outStream) : s = t := by
  cases s; cases t; simp_all

/-! ### reset -/

@[simp] theorem State.reset_pc : State.reset.pc = BitVec.ofNat 64 loadBase := rfl
@[simp] theorem State.reset_mode : State.reset.mode = .user := rfl
@[simp] theorem State.reset_status : State.reset.status = .running := rfl
@[simp] theorem State.reset_mem : State.reset.mem = [] := rfl
@[simp] theorem State.reset_inStream : State.reset.inStream = ⟨[], .closed⟩ := rfl
@[simp] theorem State.reset_outStream : State.reset.outStream = [] := rfl

/-- Every register is zero at reset but the stack pointer (R27). -/
theorem State.reset_reg (i : Reg) : State.reset.reg i = if i = Config.sp then spInit else 0 := by
  revert i; decide

end Sys2Proof.Machine
end

