-- ==== Sys2Proof/Laws/Ops.lean ====
section
/-! SUPPORT. For each shared operation one lemma that says once everything it can do, in the terms of Safety.lean;
for the fetch and the step, the cases they have. -/

namespace Sys2Proof.Machine

theorem SameControl.refl (s : State) : SameControl s s := ⟨rfl, rfl, rfl, rfl⟩

/-- A write of a register and the default advance, in the terms of the claims. -/
theorem setReg_advance_writesRegister (s : State) (a : Reg) (v : Word) :
    WritesRegister s (s.setReg a v).advance a v where
  result := by simp
  others := fun i hi => by simp [State.setReg_reg, hi]
  pc := rfl
  memory := fun _ => rfl
  control := ⟨rfl, rfl, rfl, rfl⟩

theorem writeBack_next (s t : State) (a : Reg) (v : Word) (h : writeBack s a v = .next t) :
    t = (s.setReg a v).advance ∧ WritesRegister s t a v := by
  cases h
  exact ⟨rfl, setReg_advance_writesRegister s a v⟩

theorem setPc_jumps (s : State) (target : Word) : Jumps s (s.setPc target) target :=
  ⟨rfl, fun _ => rfl, fun _ => rfl, ⟨rfl, rfl, rfl, rfl⟩⟩

theorem jump_next (s t : State) (target : Word) (h : jump s target = .next t) :
    t = s.setPc target ∧ Jumps s t target := by
  cases h
  exact ⟨rfl, setPc_jumps s target⟩

theorem proceed_next (s t : State) (h : proceed s = .next t) : t = s.advance ∧ Jumps s t (s.pc + 4) := by
  cases h
  exact ⟨rfl, setPc_jumps s (s.pc + 4)⟩

theorem setStatus_faults (s : State) (cause : Cause) : Faults s (s.setStatus (.faulted cause)) cause :=
  ⟨rfl, rfl, fun _ => rfl, fun _ => rfl, rfl, rfl, rfl⟩

/-- Raising a fault always answers a next state, with the status alone changed (R161). -/
theorem raise_next (s t : State) (cause : Cause) (h : raise cause s = .next t) :
    t = s.setStatus (.faulted cause) ∧ Faults s t cause := by
  cases h
  exact ⟨rfl, setStatus_faults s cause⟩

theorem haltMachine_next (s t : State) (h : haltMachine s = .next t) : t = s.setStatus .halted := by
  cases h; rfl

theorem switchMode_next (m : Mode) (s t : State) (h : switchMode m s = .next t) :
    t = (s.setMode m).advance ∧ Jumps (s.setMode m) t (s.pc + 4) := by
  cases h
  exact ⟨rfl, setPc_jumps (s.setMode m) (s.pc + 4)⟩

/-- What `In()` can meet (R22, R148). -/
theorem InStream.take_cases (x : InStream) :
    (∃ v rest, x.items = .value v :: rest ∧ x.take = .value v ⟨rest, x.ending⟩) ∨
    (∃ rest, x.items = .malformed :: rest ∧ x.take = .malformed ⟨rest, x.ending⟩) ∨
    (x.items = [] ∧ x.ending = .closed ∧ x.take = .closed) ∨
    (x.items = [] ∧ x.ending = .waiting ∧ x.take = .blocked) := by
  obtain ⟨items, ending⟩ := x
  match items, ending with
  | .value v :: rest, e => exact .inl ⟨v, rest, rfl, rfl⟩
  | .malformed :: rest, e => exact .inr (.inl ⟨rest, rfl, rfl⟩)
  | [], .closed => exact .inr (.inr (.inl ⟨rfl, rfl, rfl⟩))
  | [], .waiting => exact .inr (.inr (.inr ⟨rfl, rfl, rfl⟩))

/-- Everything the input operation can do (R144, R148). -/
theorem inputOp_cases (a b : Reg) (s : State) :
    (s.reg b ≠ 0 ∧ inputOp a b s = .next s.advance) ∨
    (s.reg b = 0 ∧ ∃ v rest, s.inStream.items = .value v :: rest ∧
      inputOp a b s = .next (((s.setIn ⟨rest, s.inStream.ending⟩).setReg a v).advance)) ∨
    (s.reg b = 0 ∧ ∃ rest, s.inStream.items = .malformed :: rest ∧
      inputOp a b s =
        .next ((s.setIn ⟨rest, s.inStream.ending⟩).setStatus (.faulted (.ioError .malformed)))) ∨
    (s.reg b = 0 ∧ s.inStream.items = [] ∧ s.inStream.ending = .closed ∧
      inputOp a b s = .next (s.setStatus (.faulted (.ioError .closed)))) ∨
    (s.reg b = 0 ∧ s.inStream.items = [] ∧ s.inStream.ending = .waiting ∧
      inputOp a b s = .fault .inputBlocked) := by
  by_cases hb : s.reg b = 0
  · have hz : isZero (s.reg b) = true := by simp [isZero, hb]
    rcases InStream.take_cases s.inStream with ⟨v, rest, h, ht⟩ | ⟨rest, h, ht⟩ | ⟨h, he, ht⟩ | ⟨h, he, ht⟩
    · exact .inr (.inl ⟨hb, v, rest, h, by simp [inputOp, hz, ht, writeBack]⟩)
    · exact .inr (.inr (.inl ⟨hb, rest, h, by simp [inputOp, hz, ht, raise]⟩))
    · exact .inr (.inr (.inr (.inl ⟨hb, h, he, by simp [inputOp, hz, ht, raise]⟩)))
    · exact .inr (.inr (.inr (.inr ⟨hb, h, he, by simp [inputOp, hz, ht]⟩)))
  · have hz : isZero (s.reg b) = false := by simpa [isZero] using hb
    exact .inl ⟨hb, by simp [inputOp, hz, proceed]⟩

/-- Everything the output operation can do (R145). -/
theorem outputOp_cases (a b : Reg) (s : State) :
    (s.reg a ≠ 0 ∧ outputOp a b s = .next (s.out (s.reg b)).advance) ∨
    (s.reg a = 0 ∧ outputOp a b s = .next s.advance) := by
  by_cases ha : s.reg a = 0
  · have hz : isNonZero (s.reg a) = false := by simp [isNonZero, ha]
    exact .inr ⟨ha, by simp [outputOp, hz, proceed]⟩
  · have hz : isNonZero (s.reg a) = true := by simpa [isNonZero] using ha
    exact .inl ⟨ha, by simp [outputOp, hz, proceed]⟩

/-- The tests of register values. -/
@[simp] theorem isNonZero_iff (v : Word) : isNonZero v = true ↔ v ≠ 0 := by simp [isNonZero]

@[simp] theorem isZero_iff (v : Word) : isZero v = true ↔ v = 0 := by simp [isZero]

theorem isGreater_iff (x y : Word) : isGreater x y = true ↔ y.toInt < x.toInt := by
  simp [isGreater, brgtSigned]

/-- What the front of a step finds (R150). -/
theorem fetch_cases (s : State) :
    (inBounds s.pc 4 ∧ ∃ i, decodeWord (s.load4 s.pc) = some i ∧ fetch s = .instr i) ∨
    (inBounds s.pc 4 ∧ decodeWord (s.load4 s.pc) = none ∧ fetch s = .fault (.illegalOpcode (s.load4 s.pc))) ∨
    (¬ inBounds s.pc 4 ∧ fetch s = .fault (.pcBounds s.pc)) := by
  unfold fetch
  by_cases hb : inBounds s.pc Config.ilen
  · rw [if_pos hb]
    cases hd : decodeWord (s.load4 s.pc) with
    | some i => exact .inl ⟨hb, i, rfl, rfl⟩
    | none => exact .inr (.inl ⟨hb, rfl, rfl⟩)
  · rw [if_neg hb]
    exact .inr (.inr ⟨hb, rfl⟩)

/-- Everything a step that is taken can be: the effect of the fetched instruction, or the fault of the fetch
(R150). -/
theorem step_next (s t : State) (h : step s = .next t) :
    s.status = .running ∧
      ((∃ i, fetch s = .instr i ∧ exec i s = .next t) ∨
       (∃ cause, fetch s = .fault cause ∧ t = s.setStatus (.faulted cause))) := by
  unfold step at h
  cases hs : s.status with
  | running =>
    rw [hs] at h
    cases hf : fetch s with
    | instr i => rw [hf] at h; exact ⟨rfl, .inl ⟨i, rfl, h⟩⟩
    | fault cause => rw [hf] at h; cases h; exact ⟨rfl, .inr ⟨cause, rfl, rfl⟩⟩
  | halted => rw [hs] at h; cases h
  | faulted cause => rw [hs] at h; cases h

/-- A step from a running state, by what the fetch finds (R150). -/
theorem step_running (s : State) (h : s.status = .running) :
    step s = match fetch s with
      | .instr i => exec i s
      | .fault cause => .next (s.setStatus (.faulted cause)) := by
  cases hf : fetch s <;> simp only [step, raise, h, hf]

/-- A store of eight bytes keeps the canonical form. -/
theorem State.store8_mem_wf (s : State) (addr v : Word) (h : s.mem.wf = true) :
    (s.store8 addr v).mem.wf = true :=
  Memory.writeNum_wf _ _ _ _ h

/-- What a byte reads after a store of eight bytes in a canonical memory (R34). -/
theorem State.store8_read (s : State) (addr v : Word) (a : Nat) (h : s.mem.wf = true) :
    (s.store8 addr v).mem.read a =
      if addr.toNat ≤ a ∧ a < addr.toNat + 8 then BitVec.ofNat 8 (v.toNat / 256 ^ (a - addr.toNat))
      else s.mem.read a := by
  simp only [State.store8_mem, Memory.writeNum, Memory.read_writeBytes _ _ _ _ h, leBytes_length, Config.dlen]
  split
  · rw [leBytes_getElem]
  · rfl

/-- A byte of an eight-byte load is the byte of memory (R34). -/
theorem State.load8_byte (s : State) (addr : Word) (k : Nat) (h : k < 8) :
    (s.load8 addr).extractLsb' (8 * k) 8 = s.mem.read (addr.toNat + k) := by
  have hb := leBytes_leValue (s.mem.readBytes addr.toNat 8)
  have hk : (leBytes 8 (leValue (s.mem.readBytes addr.toNat 8)))[k]'(by simpa using h) =
      s.mem.read (addr.toNat + k) := by
    rw [Memory.readBytes_length] at hb
    simp only [hb, Memory.readBytes_getElem]
  rw [leBytes_getElem] at hk
  rw [← hk]
  apply BitVec.eq_of_toNat_eq
  have hl := Memory.readNum_lt s.mem addr.toNat 8
  simp only [Memory.readNum] at hl
  simp only [State.load8, Memory.readNum, Config.dlen, BitVec.extractLsb'_toNat, BitVec.toNat_ofNat,
    Nat.shiftRight_eq_div_pow]
  rw [Nat.mod_eq_of_lt (a := leValue _) (Nat.lt_of_lt_of_eq hl (by decide)),
    show (256 : Nat) = 2 ^ 8 from rfl, ← Nat.pow_mul]

end Sys2Proof.Machine
end

