-- ==== Sys2Proof/Laws/Meanings.lean ====
section
/-! SUPPORT. The two cases of each instruction that tests something before it acts, so that a proof splits on the
test and never unfolds the meaning. -/

namespace Sys2Proof.Machine

/-- A taken `brnz` (R93). -/
theorem execBrnz_of_ne (a b : Reg) (s : State) (h : s.reg b ≠ 0) : execBrnz a b s = .next (s.setPc (s.reg a)) :=
  if_pos ((isNonZero_iff _).mpr h)

/-- A `brnz` not taken (R93). -/
theorem execBrnz_of_eq (a b : Reg) (s : State) (h : s.reg b = 0) : execBrnz a b s = .next s.advance :=
  if_neg fun hz => (isNonZero_iff _).mp hz h

/-- A taken `brgt` (R94; D16, log entry 16). -/
theorem execBrgt_of_lt (a b c : Reg) (s : State) (h : (s.reg c).toInt < (s.reg b).toInt) :
    execBrgt a b c s = .next (s.setPc (s.reg a)) :=
  if_pos ((isGreater_iff _ _).mpr h)

/-- A `brgt` not taken (R94; D16, log entry 16). -/
theorem execBrgt_of_le (a b c : Reg) (s : State) (h : (s.reg b).toInt ≤ (s.reg c).toInt) :
    execBrgt a b c s = .next s.advance :=
  if_neg fun hz => Int.not_lt.mpr h ((isGreater_iff _ _).mp hz)

/-- A `call` whose slot is in bounds (R100). -/
theorem execCall_of_inBounds (a : Reg) (s : State) (h : slotInBounds s.slot) :
    execCall a s = .next ((s.store8 s.slot s.nextPc).setPc (s.reg a)) :=
  if_pos h

/-- A `call` whose slot is out of bounds (R105). -/
theorem execCall_of_outOfBounds (a : Reg) (s : State) (h : ¬ slotInBounds s.slot) :
    execCall a s = .next (s.setStatus (.faulted (.stackBounds s.slot))) :=
  if_neg h

/-- A `return` whose slot is in bounds (R101). -/
theorem execReturn_of_inBounds (s : State) (h : slotInBounds s.slot) :
    execReturn s = .next (s.setPc (s.load8 s.slot)) :=
  if_pos h

/-- A `return` whose slot is out of bounds (R105). -/
theorem execReturn_of_outOfBounds (s : State) (h : ¬ slotInBounds s.slot) :
    execReturn s = .next (s.setStatus (.faulted (.stackBounds s.slot))) :=
  if_neg h

/-- A load in bounds (R130). -/
theorem execMovLd_of_inBounds (a b : Reg) (lit : Lit) (s : State) (h : inBounds (dataAddress (s.reg b) lit) 8) :
    execMovLd a b lit s = .next (s.setReg a (s.load8 (dataAddress (s.reg b) lit))).advance :=
  if_pos h

/-- A load out of bounds (R135). -/
theorem execMovLd_of_outOfBounds (a b : Reg) (lit : Lit) (s : State)
    (h : ¬ inBounds (dataAddress (s.reg b) lit) 8) :
    execMovLd a b lit s = .next (s.setStatus (.faulted (.dataBounds (dataAddress (s.reg b) lit)))) :=
  if_neg h

/-- A store in bounds (R133). -/
theorem execMovSt_of_inBounds (a b : Reg) (lit : Lit) (s : State) (h : inBounds (dataAddress (s.reg a) lit) 8) :
    execMovSt a b lit s = .next (s.store8 (dataAddress (s.reg a) lit) (s.reg b)).advance :=
  if_pos h

/-- A store out of bounds (R135). -/
theorem execMovSt_of_outOfBounds (a b : Reg) (lit : Lit) (s : State)
    (h : ¬ inBounds (dataAddress (s.reg a) lit) 8) :
    execMovSt a b lit s = .next (s.setStatus (.faulted (.dataBounds (dataAddress (s.reg a) lit)))) :=
  if_neg h

/-- A `div` by zero (R115). -/
theorem execDiv_of_eq (a b c : Reg) (s : State) (h : s.reg c = 0) :
    execDiv a b c s = .next (s.setStatus (.faulted .divZero)) :=
  if_pos ((isZero_iff _).mpr h)

/-- A `div` by a number that is not zero (R115). -/
theorem execDiv_of_ne (a b c : Reg) (s : State) (h : s.reg c ≠ 0) :
    execDiv a b c s = .next (s.setReg a (signedQuotient (s.reg b) (s.reg c))).advance :=
  if_neg fun hz => h ((isZero_iff _).mp hz)

/-- A `divf` by a zero of either sign (R125). -/
theorem execDivf_of_zero (a b c : Reg) (s : State) (h : fpIsZero (s.reg c) = true) :
    execDivf a b c s = .next (s.setStatus (.faulted .fDivZero)) :=
  if_pos h

/-- A `divf` by anything else (R124). -/
theorem execDivf_of_nonZero (a b c : Reg) (s : State) (h : fpIsZero (s.reg c) = false) :
    execDivf a b c s = .next (s.setReg a (fpResult .divf (s.reg b) (s.reg c))).advance :=
  if_neg fun hz => Bool.false_ne_true (h.symm.trans hz)

/-- The general `priv` row on the literals the decoder gives it (R146). -/
theorem execPriv_of_unknown (a b : Reg) (lit : Lit) (s : State) (h : 5 ≤ lit.toNat) :
    execPriv a b lit s = .next (s.setStatus (.faulted (.unknownPriv lit))) := by
  have ne : ∀ k : Lit, k.toNat < 5 → lit ≠ k := fun k hk he => by subst he; omega
  unfold execPriv
  rw [if_neg (ne 0 (by decide)), if_neg (ne 1 (by decide)), if_neg (ne 2 (by decide)), if_neg (ne 3 (by decide)),
    if_neg (ne 4 (by decide))]
  rfl

end Sys2Proof.Machine
end

