-- ==== Sys2Proof/Laws/PerInstr.lean ====
section
/-! SUPPORT. The per-instruction family `OpcodeField`: the opcode field of an instruction's word is the number
that the opcode map gives its operation, so decoding selects the handler the instruction was written for
(R52, R55). One lemma for each constructor of `Instr`. -/

namespace Sys2Proof.Laws.OpcodeField

/-- The opcode field of the instruction's word selects the instruction's operation. -/
def Statement (i : Instr) : Prop :=
  (decodeFields (encodeWord i)).op.toNat = numberOfOp i.op ∧
  opOfNumber (decodeFields (encodeWord i)).op.toNat = some i.op

/-- The statement for an instruction whose fields hold its operation's number. -/
theorem of_fields (i : Instr) (h : (fieldsOf i).op = opBits i.op) : Statement i := by
  have ho : (decodeFields (encodeWord i)).op.toNat = numberOfOp i.op := by
    rw [encodeWord, decodeFields_encodeFields_op, h, opBits_toNat]
  exact ⟨ho, by rw [ho, opOfNumber_numberOfOp]⟩

theorem and (a b c : Reg) : Statement (.and a b c) := of_fields _ rfl
theorem or (a b c : Reg) : Statement (.or a b c) := of_fields _ rfl
theorem xor (a b c : Reg) : Statement (.xor a b c) := of_fields _ rfl
theorem not (a b : Reg) : Statement (.not a b) := of_fields _ rfl
theorem shftr (a b c : Reg) : Statement (.shftr a b c) := of_fields _ rfl
theorem shftri (a : Reg) (lit : Lit) : Statement (.shftri a lit) := of_fields _ rfl
theorem shftl (a b c : Reg) : Statement (.shftl a b c) := of_fields _ rfl
theorem shftli (a : Reg) (lit : Lit) : Statement (.shftli a lit) := of_fields _ rfl
theorem br (a : Reg) : Statement (.br a) := of_fields _ rfl
theorem brr1 (a : Reg) : Statement (.brr1 a) := of_fields _ rfl
theorem brr2 (lit : Lit) : Statement (.brr2 lit) := of_fields _ rfl
theorem brnz (a b : Reg) : Statement (.brnz a b) := of_fields _ rfl
theorem call (a : Reg) : Statement (.call a) := of_fields _ rfl
theorem ret : Statement .ret := of_fields _ rfl
theorem brgt (a b c : Reg) : Statement (.brgt a b c) := of_fields _ rfl
theorem priv (a b : Reg) (lit : Lit) : Statement (.priv a b lit) := of_fields _ rfl
theorem movLd (a b : Reg) (lit : Lit) : Statement (.movLd a b lit) := of_fields _ rfl
theorem movRr (a b : Reg) : Statement (.movRr a b) := of_fields _ rfl
theorem movHi (a : Reg) (lit : Lit) : Statement (.movHi a lit) := of_fields _ rfl
theorem movSt (a b : Reg) (lit : Lit) : Statement (.movSt a b lit) := of_fields _ rfl
theorem addf (a b c : Reg) : Statement (.addf a b c) := of_fields _ rfl
theorem subf (a b c : Reg) : Statement (.subf a b c) := of_fields _ rfl
theorem mulf (a b c : Reg) : Statement (.mulf a b c) := of_fields _ rfl
theorem divf (a b c : Reg) : Statement (.divf a b c) := of_fields _ rfl
theorem add (a b c : Reg) : Statement (.add a b c) := of_fields _ rfl
theorem addi (a : Reg) (lit : Lit) : Statement (.addi a lit) := of_fields _ rfl
theorem sub (a b c : Reg) : Statement (.sub a b c) := of_fields _ rfl
theorem subi (a : Reg) (lit : Lit) : Statement (.subi a lit) := of_fields _ rfl
theorem mul (a b c : Reg) : Statement (.mul a b c) := of_fields _ rfl
theorem div (a b c : Reg) : Statement (.div a b c) := of_fields _ rfl
theorem privHalt : Statement .privHalt := of_fields _ rfl
theorem privEnterSupervisor : Statement .privEnterSupervisor := of_fields _ rfl
theorem privEnterUser : Statement .privEnterUser := of_fields _ rfl
theorem privInput (a b : Reg) : Statement (.privInput a b) := of_fields _ rfl
theorem privOutput (a b : Reg) : Statement (.privOutput a b) := of_fields _ rfl

end Sys2Proof.Laws.OpcodeField
end

