-- ==== Sys2Proof/Tests/Slice0.lean ====
section
/-! SUPPORT. The model's own tests: the smoke test of WellFormed, the decoding of a word written out from the spec's
encoding for every constructor, single steps whose expected results are vectors of 95_test_vectors.md (named `V-...`
there), and for each obligation with hypotheses a witness that meets them. -/

namespace Sys2Proof.Tests

open Sys2Proof.Machine Sys2Proof.Claims

set_option Elab.async false

/-! ### Well-formed terms -/

/-- The one check of WellFormed refuses the literals 0 to 4 of the general `priv` row (R58). -/
theorem test_wf_refuses_known_priv_literal : (Instr.priv 0 0 0).wf = false ∧ (Instr.priv 31 31 4).wf = false := by
  decide

theorem test_wf_accepts_unknown_priv_literal : (Instr.priv 0 0 5).wf = true ∧ (Instr.priv 0 0 4095).wf = true := by
  decide

/-! ### Decoding: the words of the examples of the instruction rules (R70 to R146) -/

theorem test_decode_bitwise :
    decodeWord 0x00C22000 = some (.and 3 1 2) ∧
    decodeWord 0x08C22000 = some (.or 3 1 2) ∧
    decodeWord 0x10C22000 = some (.xor 3 1 2) ∧
    decodeWord 0x1845FFFF = some (.not 1 2) := by
  decide

theorem test_decode_shifts :
    decodeWord 0x20C22000 = some (.shftr 3 1 2) ∧
    decodeWord 0x28C00FFF = some (.shftri 3 4095) ∧
    decodeWord 0x30C22000 = some (.shftl 3 1 2) ∧
    decodeWord 0x38C00040 = some (.shftli 3 64) := by
  decide

theorem test_decode_branches :
    decodeWord 0x41400000 = some (.br 5) ∧
    decodeWord 0x49400000 = some (.brr1 5) ∧
    decodeWord 0x50000FF8 = some (.brr2 0xFF8) ∧
    decodeWord 0x594C0000 = some (.brnz 5 6) ∧
    decodeWord 0x70443000 = some (.brgt 1 2 3) := by
  decide

theorem test_decode_call_return :
    decodeWord 0x610E9123 = some (.call 4) ∧
    decodeWord 0x68000000 = some (.ret) := by
  decide

theorem test_decode_integer :
    decodeWord 0xC0801000 = some (.add 2 0 1) ∧
    decodeWord 0xC8400FFF = some (.addi 1 4095) ∧
    decodeWord 0xD0C22000 = some (.sub 3 1 2) ∧
    decodeWord 0xD8C00001 = some (.subi 3 1) ∧
    decodeWord 0xE0C22000 = some (.mul 3 1 2) ∧
    decodeWord 0xE8C22000 = some (.div 3 1 2) := by
  decide

theorem test_decode_float :
    decodeWord 0xA0C22000 = some (.addf 3 1 2) ∧
    decodeWord 0xA8C22000 = some (.subf 3 1 2) ∧
    decodeWord 0xB0C22000 = some (.mulf 3 1 2) ∧
    decodeWord 0xB8C22000 = some (.divf 3 1 2) := by
  decide

theorem test_decode_moves :
    decodeWord 0x80440FF8 = some (.movLd 1 2 0xFF8) ∧
    decodeWord 0x88440000 = some (.movRr 1 2) ∧
    decodeWord 0x90400ABC = some (.movHi 1 0xABC) ∧
    decodeWord 0x98440010 = some (.movSt 1 2 16) := by
  decide

theorem test_decode_priv :
    decodeWord 0x7FFFF000 = some (.privHalt) ∧
    decodeWord 0x78000001 = some (.privEnterSupervisor) ∧
    decodeWord 0x78000002 = some (.privEnterUser) ∧
    decodeWord 0x78440003 = some (.privInput 1 2) ∧
    decodeWord 0x78840004 = some (.privOutput 2 2) ∧
    decodeWord 0x78000014 = some (.priv 0 0 0x14) := by
  decide

theorem test_decode_refuses_opcodes_30_and_31 :
    decode [0x00, 0x00, 0x00, 0xF0] = .illegalOpcode 0xF0000000 ∧
    decode [0xFF, 0xFF, 0xFF, 0xFF] = .illegalOpcode 0xFFFFFFFF := by
  decide

/-- Three bytes are no word; four bytes are, least significant first (R34, R50). -/
theorem test_decode_truncated :
    decode [0x00, 0x10, 0x80] = .truncated ∧ decode [0x00, 0x10, 0x80, 0xC0] = .ok (.add 2 0 1) := by
  decide

/-- The worked example of the encoding function (R63). -/
theorem test_encode_add : encodeBytes (.add 2 0 1) = [0x00, 0x10, 0x80, 0xC0] := by
  decide

/-! ### Single steps -/

/-- The reset state with some registers, the pc, and the word to run at it. -/
def start (regs : List (Reg × Word)) (pc : Word) (w : Nat) : State :=
  ((regs.foldl (fun s r => s.setReg r.1 r.2) State.reset).setPc pc).withFetchWord 32 w

/-- The state a step or an instruction answers, where there is one. -/
def next? (r : Result) : Option State :=
  match r with
  | .next t => some t
  | .fault _ => none
  | .refused _ => none

/-- A register, the pc and the status after one step. -/
def seen (s : State) (r : Reg) : Option (Word × Word × Status) :=
  (next? (step s)).map fun t => (t.reg r, t.pc, t.status)

/-- `n` bytes of memory and the pc after one step. -/
def stored (s : State) (addr n : Nat) : Option (List Byte × Word) :=
  (next? (step s)).map fun t => (t.mem.readBytes addr n, t.pc)

/-- The reset state with eight bytes in memory. -/
def withData (s : State) (addr v : Word) : State := s.store8 addr v

/-- V-B1. -/
theorem test_and :
    seen (start [(1, 0xFF00FF00FF00FF00), (2, 0xFF00FF00FF00FF0)] 0x1000 0x00C22000) 3 =
      some (0xF000F000F000F00, 0x1004, .running) := by
  decide +kernel

/-- V-B10. -/
theorem test_or_into_stack_pointer :
    seen (start [(1, 0x1), (2, 0x2)] 0x1000 0x0FC22000) 31 =
      some (0x3, 0x1004, .running) := by
  decide +kernel

/-- V-B3. -/
theorem test_xor :
    seen (start [(1, 0xFF00FF00FF00FF00), (2, 0xFF00FF00FF00FF0)] 0x1000 0x10C22000) 3 =
      some (0xF0F0F0F0F0F0F0F0, 0x1004, .running) := by
  decide +kernel

/-- V-B9. -/
theorem test_not_ignored_fields :
    seen (start [(2, 0xFFFFFFFF)] 0x1000 0x1845FFFF) 1 =
      some (0xFFFFFFFF00000000, 0x1004, .running) := by
  decide +kernel

/-- V-S8. -/
theorem test_shftr_huge_count :
    seen (start [(1, 0x8000000000000001), (2, 0x8000000000000000), (3, 0x7)] 0x1000 0x20C22000) 3 =
      some (0x0, 0x1004, .running) := by
  decide +kernel

/-- V-S21. -/
theorem test_shftr_logical :
    seen (start [(1, 0xFFFFFFFFFFFFFFFF), (2, 0x1)] 0x1000 0x20C22000) 3 =
      some (0x7FFFFFFFFFFFFFFF, 0x1004, .running) := by
  decide +kernel

/-- V-S20. -/
theorem test_shftri :
    seen (start [(3, 0xF0), (1, 0xAAAA), (2, 0xBBBB)] 0x1000 0x28C22004) 3 =
      some (0xF, 0x1004, .running) := by
  decide +kernel

/-- V-S14. -/
theorem test_shftri_4095 :
    seen (start [(3, 0x8000000000000001)] 0x1000 0x28C00FFF) 3 =
      some (0x0, 0x1004, .running) := by
  decide +kernel

/-- V-S9. -/
theorem test_shftl_63 :
    seen (start [(1, 0x8000000000000001), (2, 0x3F)] 0x1000 0x30C22000) 3 =
      some (0x8000000000000000, 0x1004, .running) := by
  decide +kernel

/-- V-S11. -/
theorem test_shftl_two_to_32 :
    seen (start [(1, 0x8000000000000001), (2, 0x100000000), (3, 0x7)] 0x1000 0x30C22000) 3 =
      some (0x0, 0x1004, .running) := by
  decide +kernel

/-- V-S18. -/
theorem test_shftli :
    seen (start [(3, 0xFFF)] 0x1000 0x38C0000C) 3 =
      some (0xFFF000, 0x1004, .running) := by
  decide +kernel

/-- V-S17. -/
theorem test_shftli_64 :
    seen (start [(3, 0x8000000000000001)] 0x1000 0x38C00040) 3 =
      some (0x0, 0x1004, .running) := by
  decide +kernel

/-- V-C1. -/
theorem test_br :
    seen (start [(5, 0x1010)] 0x1000 0x41400000) 5 =
      some (0x1010, 0x1010, .running) := by
  decide +kernel

/-- V-C2. -/
theorem test_brr1_backward :
    seen (start [(5, 0xFFFFFFFFFFFFFFF8)] 0x1008 0x49400000) 5 =
      some (0xFFFFFFFFFFFFFFF8, 0x1000, .running) := by
  decide +kernel

/-- V-C7. -/
theorem test_brr2_most_negative :
    seen (start [] 0x2000 0x50000800) 0 =
      some (0x0, 0x1800, .running) := by
  decide +kernel

/-- V-C8. -/
theorem test_brr2_most_positive :
    seen (start [] 0x2000 0x500007FF) 0 =
      some (0x0, 0x27FF, .running) := by
  decide +kernel

/-- V-C13. -/
theorem test_brnz_minus_zero_taken :
    seen (start [(5, 0x2000), (6, 0x8000000000000000)] 0x1000 0x594C0000) 6 =
      some (0x8000000000000000, 0x2000, .running) := by
  decide +kernel

/-- V-C12. -/
theorem test_brnz_not_taken :
    seen (start [(5, 0x2000)] 0x1000 0x594C0000) 5 =
      some (0x2000, 0x1004, .running) := by
  decide +kernel

/-- V-C17. -/
theorem test_brgt_signed_not_taken :
    seen (start [(1, 0x3000), (2, 0xFFFFFFFFFFFFFFFF), (3, 0x0)] 0x1000 0x70443000) 1 =
      some (0x3000, 0x1004, .running) := by
  decide +kernel

/-- V-C19. -/
theorem test_brgt_signed_taken :
    seen (start [(1, 0x3000), (2, 0x7FFFFFFFFFFFFFFF), (3, 0x8000000000000000)] 0x1000 0x70443000) 1 =
      some (0x3000, 0x3000, .running) := by
  decide +kernel

/-- V-K8: the lowest slot; the call overwrites itself. -/
theorem test_call_lowest_slot : stored (start [(4, 0x1010), (31, 0x1008)] 0x1000 0x61000000) 0x1000 8 =
    some ([0x04, 0x10, 0, 0, 0, 0, 0, 0], 0x1010) := by
  decide +kernel

/-- V-K7. -/
theorem test_call_slot_below_load_base :
    seen (start [(4, 0x1010), (31, 0x1007)] 0x1000 0x61000000) 31 =
      some (0x1007, 0x1000, .faulted (.stackBounds 0xFFF)) := by
  decide +kernel

/-- V-K2. -/
theorem test_return :
    seen (withData (start [] 0x1010 0x68000000) 0x7FFF8 0x1004) 31 =
      some (0x80000, 0x1004, .running) := by
  decide +kernel

/-- V-K9. -/
theorem test_return_out_of_bounds :
    seen (start [(31, 0x1007)] 0x1000 0x68000000) 31 =
      some (0x1007, 0x1000, .faulted (.stackBounds 0xFFF)) := by
  decide +kernel

/-- V-I3. -/
theorem test_add_wraps :
    seen (start [(1, 0xFFFFFFFFFFFFFFFF), (2, 0x1), (3, 0x9)] 0x1000 0xC0C22000) 3 =
      some (0x0, 0x1004, .running) := by
  decide +kernel

/-- V-I8. -/
theorem test_addi_in_place :
    seen (start [(1, 0x64), (2, 0x3E8)] 0x1000 0xC8440005) 1 =
      some (0x69, 0x1004, .running) := by
  decide +kernel

/-- V-I6. -/
theorem test_addi_unsigned_wraps :
    seen (start [(1, 0xFFFFFFFFFFFFFFFF)] 0x1000 0xC8400FFF) 1 =
      some (0xFFE, 0x1004, .running) := by
  decide +kernel

/-- V-I9. -/
theorem test_sub :
    seen (start [(1, 0x5), (2, 0x7)] 0x1000 0xD0C22000) 3 =
      some (0xFFFFFFFFFFFFFFFE, 0x1004, .running) := by
  decide +kernel

/-- V-I13. -/
theorem test_subi :
    seen (start [(3, 0x5)] 0x1000 0xD8C00FFF) 3 =
      some (0xFFFFFFFFFFFFF006, 0x1004, .running) := by
  decide +kernel

/-- V-I18. -/
theorem test_mul :
    seen (start [(1, 0x3), (2, 0xFFFFFFFFFFFFFFFB)] 0x1000 0xE0C22000) 3 =
      some (0xFFFFFFFFFFFFFFF1, 0x1004, .running) := by
  decide +kernel

/-- V-I22. -/
theorem test_div_toward_zero :
    seen (start [(1, 0xFFFFFFFFFFFFFFF9), (2, 0x2)] 0x1000 0xE8C22000) 3 =
      some (0xFFFFFFFFFFFFFFFD, 0x1004, .running) := by
  decide +kernel

/-- V-I19. -/
theorem test_div_zero :
    seen (start [(1, 0x7), (3, 0x55)] 0x1000 0xE8C22000) 3 =
      some (0x55, 0x1000, .faulted .divZero) := by
  decide +kernel

/-- V-F28. -/
theorem test_addf_tie_to_even :
    seen (start [(1, 0x3FF0000000000001), (2, 0x3CA0000000000000)] 0x1000 0xA0C22000) 3 =
      some (0x3FF0000000000002, 0x1004, .running) := by
  decide +kernel

/-- V-F8. -/
theorem test_addf_signed_zeros :
    seen (start [(1, 0x8000000000000000), (3, 0x9)] 0x1000 0xA0C22000) 3 =
      some (0x0, 0x1004, .running) := by
  decide +kernel

/-- V-F3. -/
theorem test_subf :
    seen (start [(1, 0x3FF8000000000000), (2, 0x4002000000000000)] 0x1000 0xA8C22000) 3 =
      some (0xBFE8000000000000, 0x1004, .running) := by
  decide +kernel

/-- V-F9. -/
theorem test_mulf_overflow :
    seen (start [(1, 0x7FE1CCF385EBC8A0), (2, 0x4024000000000000)] 0x1000 0xB0C22000) 3 =
      some (0x7FF0000000000000, 0x1004, .running) := by
  decide +kernel

/-- V-F24. -/
theorem test_mulf_subnormal :
    seen (start [(1, 0x10000000000000), (2, 0x3FE0000000000000)] 0x1000 0xB0C22000) 3 =
      some (0x8000000000000, 0x1004, .running) := by
  decide +kernel

/-- V-F5. -/
theorem test_divf :
    seen (start [(1, 0x3FF0000000000000), (2, 0x4008000000000000)] 0x1000 0xB8C22000) 3 =
      some (0x3FD5555555555555, 0x1004, .running) := by
  decide +kernel

/-- V-F12. -/
theorem test_divf_minus_zero :
    seen (start [(1, 0x3FF0000000000000), (2, 0x8000000000000000), (3, 0x55)] 0x1000 0xB8C22000) 3 =
      some (0x55, 0x1000, .faulted .fDivZero) := by
  decide +kernel

/-- V-F19: infinity minus infinity has a NaN as its result, and the run goes on. -/
theorem test_subf_nan :
    fpRound (fpExact .subf (fpUnpack 0x7FF0000000000000) (fpUnpack 0x7FF0000000000000)) = none ∧
    (next? (step (start [(1, 0x7FF0000000000000), (2, 0x7FF0000000000000)] 0x1000 0xA8C22000))).map
      (fun t => (t.pc, t.status)) = some (0x1004, .running) := by
  decide +kernel

/-- V-M8. -/
theorem test_mov_ld_unaligned_own_word :
    seen (start [(2, 0x1000), (1, 0x9)] 0x1000 0x80440000) 1 =
      some (0x80440000, 0x1004, .running) := by
  decide +kernel

/-- V-M12. -/
theorem test_mov_ld_out_of_bounds :
    seen (start [(2, 0x7FFF9), (1, 0x55)] 0x1000 0x80440000) 1 =
      some (0x55, 0x1000, .faulted (.dataBounds 0x7FFF9)) := by
  decide +kernel

/-- V-M3. -/
theorem test_mov_rr :
    seen (start [(2, 0xDEADBEEF00000001)] 0x1000 0x88440000) 1 =
      some (0xDEADBEEF00000001, 0x1004, .running) := by
  decide +kernel

/-- V-M4. -/
theorem test_mov_hi :
    seen (start [(1, 0x123456789ABCDEF)] 0x1000 0x90400ABC) 1 =
      some (0xABC3456789ABCDEF, 0x1004, .running) := by
  decide +kernel

/-- V-M9: an unaligned store. -/
theorem test_mov_st_unaligned : stored (start [(1, 0x2000), (2, 0x1122334455667788)] 0x1000 0x98440003) 0x2003 8 =
    some ([0x88, 0x77, 0x66, 0x55, 0x44, 0x33, 0x22, 0x11], 0x1004) := by
  decide +kernel

/-- V-M20: the value stored is the register it is stored at. -/
theorem test_mov_st_own_base : stored (start [(1, 0x2000)] 0x1000 0x98420000) 0x2000 8 =
    some ([0x00, 0x20, 0, 0, 0, 0, 0, 0], 0x1004) := by
  decide +kernel

/-- V-P1. -/
theorem test_halt :
    seen (start [] 0x1000 0x78000000) 31 =
      some (0x80000, 0x1000, .halted) := by
  decide +kernel

/-- V-P3 and V-P5. -/
theorem test_mode_switches :
    (next? (step (start [] 0x1000 0x78000001))).map (fun t => (t.mode, t.pc)) = some (.supervisor, 0x1004) ∧
    (next? (step ((start [] 0x1000 0x78000002).setMode .supervisor))).map (fun t => (t.mode, t.pc)) =
      some (.user, 0x1004) := by
  decide +kernel

/-- The input of some items, after which the stream is closed. -/
def items (l : List InItem) : InStream := ⟨l, .closed⟩

/-- V-P7. -/
theorem test_input : (next? (step ((start [] 0x1000 0x78400003).setIn (items [.value 42, .value 7])))).map
    (fun t => (t.reg 1, t.inStream, t.pc)) = some (42, items [.value 7], 0x1004) := by
  decide +kernel

/-- V-P9: the malformed item is consumed. -/
theorem test_input_malformed :
    (next? (step ((start [(1, 0x55)] 0x1000 0x78400003).setIn (items [.malformed, .value 4])))).map
      (fun t => (t.reg 1, t.inStream, t.status)) =
    some (0x55, items [.value 4], .faulted (.ioError .malformed)) := by
  decide +kernel

/-- V-P14 and V-P15. -/
theorem test_output :
    (next? (step (start [(0, 5), (2, 12)] 0x1000 0x78800004))).map (fun t => (t.outStream, t.pc)) =
      some ([5], 0x1004) ∧
    (next? (step (start [(2, 12)] 0x1000 0x78440004))).map (fun t => (t.outStream, t.pc)) = some ([], 0x1004) := by
  decide +kernel

/-- V-P21. -/
theorem test_unknown_priv :
    seen (start [] 0x1000 0x78000014) 0 =
      some (0x0, 0x1000, .faulted (.unknownPriv 0x14)) := by
  decide +kernel

/-- V-X2. -/
theorem test_illegal_opcode :
    seen (start [(1, 0x5)] 0x1000 0xFFFFFFFF) 1 =
      some (0x5, 0x1000, .faulted (.illegalOpcode 0xFFFFFFFF)) := by
  decide +kernel

/-- V-X6. -/
theorem test_last_word_is_fetchable :
    seen (start [] 0x7FFFC 0) 0 =
      some (0x0, 0x80000, .running) := by
  decide +kernel

/-- V-X5. -/
theorem test_pc_out_of_bounds :
    seen (start [] 0x7FFFD 0) 0 =
      some (0x0, 0x7FFFD, .faulted (.pcBounds 0x7FFFD)) := by
  decide +kernel

/-- The text of 0 and of the largest value (R23, and the vector V-P16). -/
theorem test_output_text : outText [0] = "0" ∧ outText [0xFFFFFFFFFFFFFFFF] = "18446744073709551615" := by
  decide +kernel

/-! ### Witnesses: concrete operands and states that meet the hypotheses of the obligations -/

/-- A running state with canonical memory, the stack pointer at the top of memory and some registers. -/
def base (regs : List (Reg × Word)) : State := start regs 0x1000 0

theorem witness_DecodeOfEncodeIsTheInstruction : (Instr.priv 31 0 5).wf = true := by decide

theorem witness_DecodedInstructionsAreWellFormed : decodeWord 0xC0801FFF = some (.add 2 0 1) := by decide

/-- Clause 2 with the ignored literal different, with a `priv` whose literal uses no register, and clause 3 at its
lowest literal. -/
theorem witness_IgnoredFieldsChangeNothing :
    opOfNumber (decodeFields 0xC0801000).op.toNat = some .add ∧
    (decodeFields 0xC0801FFF).op = (decodeFields 0xC0801000).op ∧
    (decodeFields 0xC0801FFF).a = (decodeFields 0xC0801000).a ∧
    (decodeFields 0xC0801FFF).b = (decodeFields 0xC0801000).b ∧
    (decodeFields 0xC0801FFF).c = (decodeFields 0xC0801000).c ∧
    opOfNumber (decodeFields 0x7FFFF002).op.toNat = some .priv ∧
    (decodeFields 0x78000002).lit = (decodeFields 0x7FFFF002).lit ∧
    usesA .priv (decodeFields 0x7FFFF002).lit = false ∧ usesB .priv (decodeFields 0x7FFFF002).lit = false ∧
    5 ≤ (5 : Lit).toNat := by
  decide

theorem witness_OpcodeMapIsABijection : (29 : Nat) < 30 ∧ (30 : Nat) ≤ 30 := by decide

theorem witness_WordsOfTheTableDecode : 5 ≤ (5 : Lit).toNat ∧ 5 ≤ (4095 : Lit).toNat := by decide

/-- The longest image that fits and the shortest that does not. -/
theorem witness_BootLaysDownTheImage :
    4096 + 4 * (List.replicate 130048 (0 : IWord)).length ≤ 524288 ∧
    524288 < 4096 + 4 * (List.replicate 130049 (0 : IWord)).length := by
  simp only [List.length_replicate]; decide

theorem witness_BootHasTheInvariant : ∃ s, boot [0x78000000] (items [.value 1]) = .ready s :=
  ⟨_, if_pos (by decide)⟩

/-- At the reset pc and at the last fetchable address. -/
theorem witness_StepRunsTheDecodedInstruction :
    ((start [] 0x1000 0xC0801000).status = .running ∧ (start [] 0x1000 0xC0801000).pc.toNat + 4 ≤ 524288 ∧
      decodeWord ((start [] 0x1000 0xC0801000).load4 0x1000) = some (.add 2 0 1)) ∧
    ((start [] 0x7FFFC 0x78000000).status = .running ∧ (start [] 0x7FFFC 0x78000000).pc.toNat + 4 ≤ 524288 ∧
      decode ((start [] 0x7FFFC 0x78000000).mem.readBytes 0x7FFFC 4) = .ok .privHalt) := by
  decide +kernel

/-- The first address from which no word can be fetched; the lowest illegal word at the last fetchable address. -/
theorem witness_FetchFaults :
    ((start [] 0x7FFFD 0).status = .running ∧ 524288 < (start [] 0x7FFFD 0).pc.toNat + 4) ∧
    ((start [] 0x7FFFC 0xF0000000).status = .running ∧ (start [] 0x7FFFC 0xF0000000).pc.toNat + 4 ≤ 524288 ∧
      30 * 2 ^ 27 ≤ ((start [] 0x7FFFC 0xF0000000).load4 0x7FFFC).toNat) := by
  decide +kernel

theorem witness_FaultedIsTerminal : ((base []).setStatus (.faulted .divZero)).status = .faulted .divZero := rfl

theorem witness_OnlyRunningStatesStep :
    ((base []).setStatus .halted).status = .halted ∧
    ((base []).setStatus (.faulted .divZero)).status = .faulted .divZero ∧ (next? (step (base []))).isSome = true := by
  decide +kernel

theorem witness_HaltIsTheOnlySuccessfulEnd :
    (next? (step (start [] 0x1000 0x78000000))).map (fun t => t.status) = some .halted := by
  decide +kernel

theorem witness_RunningMachineMovesOrWaitsForInput : (base []).status = .running := by decide +kernel

/-- Both ends of a faulting step: nothing changed, and a malformed item consumed. -/
theorem witness_FaultsArePrecise :
    (next? (step (start [] 0x1000 0xE8C22000))).map (fun t => t.status) = some (.faulted .divZero) ∧
    (next? (step ((start [] 0x1000 0x78400003).setIn (items [.malformed])))).map (fun t => t.status) =
      some (.faulted (.ioError .malformed)) := by
  decide +kernel

/-- Each of the four cases; the two of `brgt` at equal and at neighbouring values. -/
theorem witness_ConditionalBranches :
    ((base [(1, 1)]).reg 1).toNat ≠ 0 ∧ ((base []).reg 1).toNat = 0 ∧
    ((base [(2, 0), (3, 0xFFFFFFFFFFFFFFFF)]).reg 3).toInt < ((base [(2, 0), (3, 0xFFFFFFFFFFFFFFFF)]).reg 2).toInt ∧
    ((base [(2, 5), (3, 5)]).reg 2).toInt ≤ ((base [(2, 5), (3, 5)]).reg 3).toInt := by
  decide +kernel

/-- A taken branch to a bad address, and a branch that is not taken. -/
theorem witness_TransfersAreCheckedByTheNextFetch :
    (transferTarget (.br 5) (base [(5, 0x7FFFD)]) = some 0x7FFFD ∧ isTaken (.br 5) (base [(5, 0x7FFFD)]) ∧
      (next? (exec (.br 5) (base [(5, 0x7FFFD)]))).map (fun t => (t.status, decide (524288 < t.pc.toNat + 4))) =
        some (.running, true)) ∧
    (transferTarget (.brnz 5 6) (base [(5, 0x2000)]) = some 0x2000 ∧ ¬ isTaken (.brnz 5 6) (base [(5, 0x2000)]) ∧
      (next? (exec (.brnz 5 6) (base [(5, 0x2000)]))).map (fun t => t.status) = some .running) := by
  refine ⟨⟨by decide +kernel, trivial, by decide +kernel⟩, by decide +kernel, fun h => h (by decide +kernel),
    by decide +kernel⟩

/-- The lowest and the highest slot that are in bounds. -/
theorem witness_CallAndReturnComplete :
    (4096 ≤ (base [(31, 0x1008)]).slot.toNat ∧ (base [(31, 0x1008)]).slot.toNat + 8 ≤ 524288) ∧
    (4096 ≤ (base []).slot.toNat ∧ (base []).slot.toNat + 8 ≤ 524288 ∧ (base []).mem.wf = true) := by
  decide +kernel

/-- The first slots that are out of bounds on either side. -/
theorem witness_SlotOutOfBoundsFaults :
    (base [(31, 0x1007)]).slot.toNat < 4096 ∧ 524288 < (base [(31, 0x80001)]).slot.toNat + 8 := by
  decide +kernel

theorem witness_CallThenReturnComesBack : (base [(4, 0x1010)]).mem.wf = true ∧
    (next? (exec (.call 4) (base [(4, 0x1010)]))).map (fun t => t.status) = some .running := by
  decide +kernel

/-- An ordinary quotient, the quotient that wraps, and a zero divisor. -/
theorem witness_DivisionTruncatesAndFaultsOnZero :
    (((base [(1, 0x8000000000000000), (2, 2)]).reg 2).toNat ≠ 0 ∧
      ¬ (((base [(1, 0x8000000000000000), (2, 2)]).reg 1).toInt = -2 ^ 63 ∧
        ((base [(1, 0x8000000000000000), (2, 2)]).reg 2).toInt = -1)) ∧
    (((base [(1, 0x8000000000000000)]).reg 1).toInt = -2 ^ 63 ∧
      ((base [(2, 0xFFFFFFFFFFFFFFFF)]).reg 2).toInt = -1) ∧
    ((base []).reg 2).toNat = 0 := by
  decide +kernel

theorem witness_IntegerFamilyFrame : integerDest (.div 31 1 2) = some 31 := rfl

/-- A zero divisor of each kind, a floating-point divisor that is neither zero, the integer divisor -2^63, and an
instruction that divides nothing. -/
theorem witness_OnlyDivisionByZeroIsAnArithmeticFault :
    isArithmetic (.div 1 2 3) = true ∧ divisor (.div 1 2 3) (base []) = some 0 ∧
    isArithmetic (.divf 1 2 3) = true ∧ divisor (.divf 1 2 3) (base []) = some 0 ∧
    divisor (.divf 1 2 3) (base [(3, 1)]) = some 1 ∧ (base [(3, 1)]).reg 3 ≠ 0x8000000000000000 ∧
    divisor (.div 1 2 3) (base [(3, 0x8000000000000000)]) = some 0x8000000000000000 ∧
    isArithmetic (.shftr 1 2 3) = true ∧ divisor (.shftr 1 2 3) (base [(3, 64)]) = none := by
  decide +kernel

/-- For the four statements of correct rounding: the largest finite number and the smallest subnormal are finite;
the latter is a divisor that is not zero. -/
theorem witness_FiniteOperands :
    isFinite ((base [(1, 0x7FEFFFFFFFFFFFFF)]).reg 1) ∧ isFinite ((base [(2, 1)]).reg 2) ∧
    fpValue ((base [(2, 1)]).reg 2) ≠ 0 := by
  have h : (base [(2, 1)]).reg 2 = 1 := by decide +kernel
  refine ⟨by unfold isFinite; decide +kernel, by unfold isFinite; decide +kernel, ?_⟩
  rw [h]
  have hm : fpMag 1 = 1 := by decide
  simp only [fpValue, hm]
  norm_num
  split <;> norm_num

theorem witness_DivfFaultsExactlyOnZeroDivisors :
    (base []).reg 2 = 0 ∧ (base [(2, 0x8000000000000000)]).reg 2 = 0x8000000000000000 ∧
    (base [(2, 1)]).reg 2 ≠ 0 ∧ (base [(2, 1)]).reg 2 ≠ 0x8000000000000000 := by
  decide +kernel

/-- Operands of each clause: a NaN dividend and a NaN divisor, infinities of equal and of different sign, an infinity
and a finite number that is zero or not, on either side. -/
theorem witness_FloatSpecialOperands :
    (fpIsNan ((base [(1, 0x7FF0000000000001), (2, 1)]).reg 1) = true ∧
      (base [(1, 0x7FF0000000000001), (2, 1)]).reg 2 ≠ 0 ∧
      (base [(1, 0x7FF0000000000001), (2, 1)]).reg 2 ≠ 0x8000000000000000) ∧
    fpIsNan ((base [(2, 0xFFFFFFFFFFFFFFFF)]).reg 2) = true ∧
    ((base [(1, 0x7FF0000000000000), (2, 0xFFF0000000000000)]).reg 1 = fpInf false ∧
      (base [(1, 0x7FF0000000000000), (2, 0xFFF0000000000000)]).reg 2 = fpInf true) ∧
    ((base [(1, 0xFFF0000000000000)]).reg 1 = fpInf true ∧ fpExp ((base [(2, 0x8000000000000000)]).reg 2) ≠ 2047 ∧
      fpMag ((base [(2, 0x8000000000000000)]).reg 2) = 0) ∧
    (fpExp ((base [(1, 0x7FEFFFFFFFFFFFFF)]).reg 1) ≠ 2047 ∧ fpMag ((base [(1, 0x7FEFFFFFFFFFFFFF)]).reg 1) ≠ 0 ∧
      (base [(2, 0x7FF0000000000000)]).reg 2 = fpInf false) := by
  decide +kernel

/-- The last number below the overflow limit and the limit itself. -/
theorem witness_RoundingIsToNearestEven :
    0 < 1 ∧ 2 ^ 2098 - 2 ^ 2044 - 1 < (2 ^ 2098 - 2 ^ 2044) * 1 ∧
    (2 ^ 2098 - 2 ^ 2044) * 1 ≤ 2 ^ 2098 - 2 ^ 2044 := by
  decide +kernel

theorem witness_FloatPatternsRoundTrip : fpIsNan 0x3FF0000000000000 = false ∧ fpIsNan 0xFFF0000000000000 = false := by
  decide +kernel

/-- The last address of a load and of a store, reached with a negative displacement. -/
theorem witness_LoadAndStoreComplete :
    (dataAddress ((base [(2, 0x80000)]).reg 2) 0xFF8).toNat + 8 ≤ 524288 ∧
    (base [(2, 0x80000)]).mem.wf = true ∧ (dataAddress ((base []).reg 1) 0).toNat + 8 ≤ 524288 := by
  decide +kernel

/-- The first address that is out of bounds, and a sum below zero. -/
theorem witness_DataOutOfBoundsFaults :
    524288 < (dataAddress ((base [(2, 0x7FFF9)]).reg 2) 0).toNat + 8 ∧
    524288 < (dataAddress ((base []).reg 1) 0xFF8).toNat + 8 := by
  decide +kernel

/-- A store and a load whose bases and displacements differ. -/
theorem witness_StoreThenLoadGivesTheValue : (base [(1, 0x2000), (5, 0x2005)]).mem.wf = true ∧
    (next? (exec (.movSt 1 2 3) (base [(1, 0x2000), (5, 0x2005)]))).map (fun t => t.status) = some .running ∧
    dataAddress ((base [(1, 0x2000), (5, 0x2005)]).reg 5) 0xFFE =
      dataAddress ((base [(1, 0x2000), (5, 0x2005)]).reg 1) 3 := by
  decide +kernel

theorem witness_ReadsAfterAStoreSeeItsBytes :
    (base []).mem.wf = true ∧ (0x7FFF8 : Word).toNat + 8 ≤ 524288 ∧ (0 : Nat) < 7 ∧ (7 : Nat) < 8 := by
  decide +kernel

theorem witness_ModeIsTrackedNotEnforced :
    isModeSwitch .privEnterUser ∧ isModeSwitch (.priv 0 0 1) ∧ ¬ isModeSwitch (.add 1 2 3) ∧
    (next? (exec (.add 1 2 3) (base []))).isSome = true := by
  refine ⟨.inr (.inl rfl), .inr (.inr ⟨0, 0, .inl rfl⟩), ?_, by decide +kernel⟩
  simp [isModeSwitch]

/-- Each of the five cases of the input. -/
theorem witness_GatedInput :
    ((base []).reg 2).toNat = 0 ∧ ((base [(2, 1)]).reg 2).toNat ≠ 0 ∧
    ((base []).setIn (items [.value 8])).inStream.items = .value 8 :: [] ∧
    ((base []).setIn (items [.malformed])).inStream.items = .malformed :: [] ∧
    ((base []).setIn (items [])).inStream = ⟨[], .closed⟩ ∧
    ((base []).setIn ⟨[], .waiting⟩).inStream.ending = .waiting := by
  decide +kernel

theorem witness_OnlyAnOpenInputCanFail :
    (base []).reg 2 = 0 ∧ (base [(2, 1)]).reg 2 ≠ 0 ∧
    ((base []).setIn (items [.malformed])).inStream.items = .malformed :: [] ∧
    (base []).inStream = ⟨[], .closed⟩ ∧
    (base []).status = .running ∧
    (next? (exec (.privInput 1 2) (base []))).map (fun t => t.status) = some (.faulted (.ioError .closed)) := by
  decide +kernel

theorem witness_GatedOutput : ((base [(1, 1)]).reg 1).toNat ≠ 0 ∧ ((base []).reg 1).toNat = 0 := by
  decide +kernel

theorem witness_UnknownPrivFaults : 5 ≤ (5 : Lit).toNat ∧ 5 ≤ (4095 : Lit).toNat := by decide

theorem witness_OnlyTheDestinationRegisterChanges :
    (next? (exec (.addi 1 5) (base []))).map (fun t => decide (t.reg 1 ≠ (base []).reg 1)) = some true := by
  decide +kernel

/-- An instruction that stores nothing, the two that store, and loads that are repeated: the very same one, and one
through another register after the base was overwritten. -/
theorem witness_OnlyStoresChangeMemory :
    storeAddress (.add 1 2 3) (base []) = none ∧ (next? (exec (.add 1 2 3) (base []))).isSome = true ∧
    storeAddress (.movSt 1 2 16) (base [(1, 0x2000)]) = some 0x2010 ∧
    (next? (exec (.movSt 1 2 16) (base [(1, 0x2000)]))).isSome = true ∧
    storeAddress (.call 4) (base []) = some 0x7FFF8 ∧ (next? (exec (.call 4) (base []))).isSome = true ∧
    (next? (exec (.movLd 1 2 0) (base [(2, 0x1000)]))).map
      (fun t => (t.status, dataAddress (t.reg 2) 0)) = some (.running, dataAddress ((base [(2, 0x1000)]).reg 2) 0) ∧
    (next? (exec (.movLd 2 2 0) (base [(2, 0x1000), (3, 0x1008)]))).map
      (fun t => (t.status, dataAddress (t.reg 3) 0xFF8)) =
      some (.running, dataAddress ((base [(2, 0x1000), (3, 0x1008)]).reg 2) 0) := by
  decide +kernel

theorem witness_OutputOnlyGrows :
    (next? (exec (.privOutput 1 2) (base [(1, 1), (2, 7)]))).map (fun t => t.outStream) = some [7] := by
  decide +kernel

theorem witness_InputMattersOnlyToInput :
    ¬ isInput (.add 1 2 3) ∧
    (next? (exec (.privInput 1 2) ((base []).setIn (items [.value 8])))).map (fun t => t.inStream) =
      some (items []) := by
  refine ⟨?_, by decide +kernel⟩
  simp [isInput]

/-- A state with the invariant whose step stores, and one whose step stops. -/
theorem witness_StepKeepsTheInvariant :
    (Inv (start [(4, 0x1010)] 0x1000 0x61000000) ∧
      (next? (step (start [(4, 0x1010)] 0x1000 0x61000000))).isSome = true) ∧
    (Inv (start [] 0x1000 0x78000000) ∧
      (next? (step (start [] 0x1000 0x78000000))).map (fun t => t.status) = some .halted) := by
  refine ⟨⟨⟨by decide +kernel, by decide +kernel, fun h => absurd ?_ h⟩, by decide +kernel⟩,
    ⟨by decide +kernel, by decide +kernel, fun h => absurd ?_ h⟩, by decide +kernel⟩
  all_goals decide +kernel

theorem witness_PlacedWordRunsNext :
    (base []).mem.wf = true ∧ (base []).status = .running ∧ (base []).pc.toNat + 4 ≤ 524288 ∧
    decodeTableWord 32 0xC0801000 = some (.add 2 0 1) := by
  decide +kernel

end Sys2Proof.Tests
end

/-! PROOF. The five fields and the word, both read as numbers (R51, R52): a field is a quotient and a remainder of the
word, the word is the sum of the shifted fields, and the two are inverse because division with remainder is. -/

namespace Sys2Proof

/-- Putting two bit vectors side by side shifts the upper one by the width of the lower one. -/
theorem append_toNat_eq_mul_add {m n : Nat} (x : BitVec m) (y : BitVec n) :
    (x ++ y).toNat = x.toNat * 2 ^ n + y.toNat := by
  rw [BitVec.toNat_append, ← Nat.shiftLeft_add_eq_or_of_lt y.isLt, Nat.shiftLeft_eq]

/-- `len` bits of a word from bit `start` on, as a number (R52). -/
theorem extractLsb'_toNat_eq_div_mod (w : IWord) (start len : Nat) :
    (w.extractLsb' start len).toNat = w.toNat / 2 ^ start % 2 ^ len := by
  rw [BitVec.extractLsb'_toNat, Nat.shiftRight_eq_div_pow]

/-- The top field needs no remainder: nothing of the word lies above bit 31. -/
@[simp] theorem decodeFields_op_toNat (w : IWord) : (decodeFields w).op.toNat = w.toNat / 2 ^ 27 := by
  have hw : w.toNat < 2 ^ 32 := w.isLt
  have hop := extractLsb'_toNat_eq_div_mod w 27 5
  simp only [decodeFields]
  omega

@[simp] theorem decodeFields_a_toNat (w : IWord) : (decodeFields w).a.toNat = w.toNat / 2 ^ 22 % 32 :=
  extractLsb'_toNat_eq_div_mod w 22 5

@[simp] theorem decodeFields_b_toNat (w : IWord) : (decodeFields w).b.toNat = w.toNat / 2 ^ 17 % 32 :=
  extractLsb'_toNat_eq_div_mod w 17 5

@[simp] theorem decodeFields_c_toNat (w : IWord) : (decodeFields w).c.toNat = w.toNat / 2 ^ 12 % 32 :=
  extractLsb'_toNat_eq_div_mod w 12 5

/-- The bottom field needs no quotient: it begins at bit 0. -/
@[simp] theorem decodeFields_lit_toNat (w : IWord) : (decodeFields w).lit.toNat = w.toNat % 4096 := by
  have hlit := extractLsb'_toNat_eq_div_mod w 0 12
  simp only [decodeFields]
  omega

/-- The formula of R51: four concatenations, each a shift and a sum. -/
@[simp] theorem encodeFields_toNat (f : Fields) :
    (encodeFields f).toNat =
      f.op.toNat * 2 ^ 27 + f.a.toNat * 2 ^ 22 + f.b.toNat * 2 ^ 17 + f.c.toNat * 2 ^ 12 + f.lit.toNat := by
  simp only [encodeFields, append_toNat_eq_mul_add]
  omega

/-- Fields are determined by the five numbers they stand for. -/
theorem Fields.eq_of_toNat_eq {f g : Fields} (hop : f.op.toNat = g.op.toNat) (ha : f.a.toNat = g.a.toNat)
    (hb : f.b.toNat = g.b.toNat) (hc : f.c.toNat = g.c.toNat) (hlit : f.lit.toNat = g.lit.toNat) : f = g := by
  cases f
  cases g
  rw [Fields.mk.injEq]
  exact ⟨BitVec.eq_of_toNat_eq hop, BitVec.eq_of_toNat_eq ha, BitVec.eq_of_toNat_eq hb, BitVec.eq_of_toNat_eq hc,
    BitVec.eq_of_toNat_eq hlit⟩

/-- No field carries into the next, since each is below 2 to its width; so each is the digit that decoding reads. -/
@[simp] theorem decodeFields_encodeFields (f : Fields) : decodeFields (encodeFields f) = f := by
  have ha : f.a.toNat < 32 := f.a.isLt
  have hb : f.b.toNat < 32 := f.b.isLt
  have hc : f.c.toNat < 32 := f.c.isLt
  have hlit : f.lit.toNat < 4096 := f.lit.isLt
  have hword := encodeFields_toNat f
  apply Fields.eq_of_toNat_eq
  case hop => rw [decodeFields_op_toNat]; omega
  case ha => rw [decodeFields_a_toNat]; omega
  case hb => rw [decodeFields_b_toNat]; omega
  case hc => rw [decodeFields_c_toNat]; omega
  case hlit => rw [decodeFields_lit_toNat]; omega

/-- The five digits of a word sum up to the word. -/
@[simp] theorem encodeFields_decodeFields (w : IWord) : encodeFields (decodeFields w) = w := by
  apply BitVec.eq_of_toNat_eq
  rw [encodeFields_toNat, decodeFields_op_toNat, decodeFields_a_toNat, decodeFields_b_toNat, decodeFields_c_toNat,
    decodeFields_lit_toNat]
  omega

/-- Settles O1: the field positions and the formula are the numeric rules above, and the two round trips follow from
them. -/
theorem fieldsAndWordsCorrespond : Obligations.FieldsAndWordsCorrespond := by
  unfold Obligations.FieldsAndWordsCorrespond
  exact ⟨fun f => ⟨encodeFields_toNat f, decodeFields_encodeFields f⟩,
    fun w => ⟨encodeFields_decodeFields w, decodeFields_op_toNat w, decodeFields_a_toNat w, decodeFields_b_toNat w,
      decodeFields_c_toNat w, decodeFields_lit_toNat w⟩⟩

end Sys2Proof

/-! PROOF. The instructions that write one register (R70 to R74): such an instruction is `writeBack` of a value that the
sources determine, so one lemma gives the whole frame, and each claim is left with the value alone. -/

namespace Sys2Proof

open Machine Claims

/-- An instruction whose arm is `writeBack` completes, and changes nothing but its destination and the pc. -/
theorem writes_of_exec_eq_writeBack {i : Instr} {s : State} {a : Reg} {v : Word} (h : exec i s = writeBack s a v) :
    Writes i s a v :=
  ⟨(s.setReg a v).advance, h, setReg_advance_writesRegister s a v⟩

/-- What holds of the value written holds of the result that a claim asks for. -/
theorem Claims.Writes.exists_result {i : Instr} {s : State} {a : Reg} {v : Word} {P : Word → Prop} (h : Writes i s a v)
    (hv : P v) : ∃ t v, exec i s = .next t ∧ WritesRegister s t a v ∧ P v := by
  obtain ⟨t, hexec, hframe⟩ := h
  exact ⟨t, v, hexec, hframe, hv⟩

theorem and_writes (a b c : Reg) (s : State) : Writes (.and a b c) s a (s.reg b &&& s.reg c) :=
  writes_of_exec_eq_writeBack rfl

theorem or_writes (a b c : Reg) (s : State) : Writes (.or a b c) s a (s.reg b ||| s.reg c) :=
  writes_of_exec_eq_writeBack rfl

theorem xor_writes (a b c : Reg) (s : State) : Writes (.xor a b c) s a (s.reg b ^^^ s.reg c) :=
  writes_of_exec_eq_writeBack rfl

theorem not_writes (a b : Reg) (s : State) : Writes (.not a b) s a (~~~ s.reg b) :=
  writes_of_exec_eq_writeBack rfl

/-- Settles O18: each of the four writes the bit vector operation of its sources, and Lean's facts about that operation,
by bits for three of them and as a number for the complement, are the formulas of the family. -/
theorem bitwiseResults : Obligations.BitwiseResults := by
  unfold Obligations.BitwiseResults
  intro a b c s
  refine ⟨?and, ?or, ?xor, ?not⟩
  case and => exact (and_writes a b c s).exists_result fun _ _ => BitVec.getLsbD_and
  case or => exact (or_writes a b c s).exists_result fun _ _ => BitVec.getLsbD_or
  case xor => exact (xor_writes a b c s).exists_result fun _ _ => BitVec.getLsbD_xor
  case not => exact (not_writes a b s).exists_result BitVec.toNat_not

end Sys2Proof

/-! PROOF. The frame of the integer arithmetic family (R117). Such an instruction reads registers and nothing else, so one
state update describes it on every state with the same registers; the mode, the streams and memory drop out at once. -/

namespace Sys2Proof

open Machine Claims

/-- On every state whose registers read as those of `s`, the instruction completes with the update `f`. -/
def Claims.ActsOnRegsOf (i : Instr) (s : State) (f : State → State) : Prop :=
  ∀ u, SameRegs s u → exec i u = .next (f u)

/-- An instruction that writes a value computed from the registers writes the same value on equal registers. -/
theorem Claims.ActsOnRegsOf.of_value {i : Instr} {a : Reg} (value : (Reg → Word) → Word)
    (h : ∀ u : State, exec i u = writeBack u a (value u.reg)) (s : State) :
    ActsOnRegsOf i s fun u => (u.setReg a (value s.reg)).advance := by
  intro u hu
  have hreg : u.reg = s.reg := funext hu
  rw [h u, hreg]
  rfl

/-- A divisor that is not zero is not zero on equal registers, and the quotient is the same. -/
theorem div_actsOnRegsOf_of_ne {s : State} {c : Reg} (a b : Reg) (hc : s.reg c ≠ 0) :
    ActsOnRegsOf (.div a b c) s fun u => (u.setReg a (signedQuotient (s.reg b) (s.reg c))).advance := by
  intro u hu
  rw [← hu c] at hc
  rw [← hu b, ← hu c]
  exact execDiv_of_ne a b c u hc

/-- A zero divisor faults on every state with equal registers. -/
theorem div_actsOnRegsOf_of_eq {s : State} {c : Reg} (a b : Reg) (hc : s.reg c = 0) :
    ActsOnRegsOf (.div a b c) s fun u => u.setStatus (.faulted .divZero) :=
  fun u hu => execDiv_of_eq a b c u ((hu c).trans hc)

/-- The two things an integer arithmetic instruction can do, each for all states with the same registers. -/
theorem integer_actsOnRegsOf_cases {i : Instr} {a : Reg} (s : State) (h : integerDest i = some a) :
    (∃ v, ActsOnRegsOf i s fun u => (u.setReg a v).advance) ∨
    ((∃ b c, i = .div a b c ∧ s.reg c = 0) ∧ ActsOnRegsOf i s fun u => u.setStatus (.faulted .divZero)) := by
  cases i with
  | add a b c => cases h; exact .inl ⟨_, .of_value (fun reg => reg b + reg c) (fun _ => rfl) s⟩
  | addi a lit => cases h; exact .inl ⟨_, .of_value (fun reg => reg a + zext12 lit) (fun _ => rfl) s⟩
  | sub a b c => cases h; exact .inl ⟨_, .of_value (fun reg => reg b - reg c) (fun _ => rfl) s⟩
  | subi a lit => cases h; exact .inl ⟨_, .of_value (fun reg => reg a - zext12 lit) (fun _ => rfl) s⟩
  | mul a b c => cases h; exact .inl ⟨_, .of_value (fun reg => reg b * reg c) (fun _ => rfl) s⟩
  | div a b c =>
    cases h
    by_cases hc : s.reg c = 0
    · exact .inr ⟨⟨b, c, rfl, hc⟩, div_actsOnRegsOf_of_eq a b hc⟩
    · exact .inl ⟨_, div_actsOnRegsOf_of_ne a b hc⟩
  | _ => cases h

/-- Setting the mode, a stream or memory leaves the registers as they were, so the instruction makes the same update there;
an update that commutes with the four setters then does the same whatever the four hold. -/
theorem Claims.ActsOnRegsOf.exec_set {i : Instr} {s : State} {f : State → State} (h : ActsOnRegsOf i s f)
    (hmode : ∀ m, f (s.setMode m) = (f s).setMode m) (hin : ∀ x, f (s.setIn x) = (f s).setIn x)
    (hout : ∀ vs, f (s.setOut vs) = (f s).setOut vs) (hmem : ∀ m, f (s.setMem m) = (f s).setMem m) :
    (∀ m, exec i (s.setMode m) = .next ((f s).setMode m)) ∧ (∀ x, exec i (s.setIn x) = .next ((f s).setIn x)) ∧
      (∀ vs, exec i (s.setOut vs) = .next ((f s).setOut vs)) ∧ (∀ m, exec i (s.setMem m) = .next ((f s).setMem m)) :=
  ⟨fun m => hmode m ▸ h (s.setMode m) fun _ => rfl, fun x => hin x ▸ h (s.setIn x) fun _ => rfl,
    fun vs => hout vs ▸ h (s.setOut vs) fun _ => rfl, fun m => hmem m ▸ h (s.setMem m) fun _ => rfl⟩

/-- Settles O28: a write and a fault are the only two updates of the family; either has its frame from the laws of the
operations and commutes with setting the mode, a stream or memory. -/
theorem integerFamilyFrame : Obligations.IntegerFamilyFrame := by
  unfold Obligations.IntegerFamilyFrame
  intro i a s hi
  obtain ⟨v, hwrite⟩ | ⟨hzero, hfault⟩ := integer_actsOnRegsOf_cases s hi
  · have frame := setReg_advance_writesRegister s a v
    exact ⟨_, hwrite s fun _ => rfl, .inl ⟨v, frame⟩, frame.memory, frame.control.inStream, frame.control.outStream,
      hwrite.exec_set (fun _ => rfl) (fun _ => rfl) (fun _ => rfl) (fun _ => rfl)⟩
  · have frame := setStatus_faults s .divZero
    exact ⟨_, hfault s fun _ => rfl, .inr ⟨hzero, frame.status⟩, frame.memory, frame.inStream, frame.outStream,
      hfault.exec_set (fun _ => rfl) (fun _ => rfl) (fun _ => rfl) (fun _ => rfl)⟩

end Sys2Proof

/-! PROOF. The unknown `priv` literals (R146). That a recorded fault fails the run holds of every cause, so it is said of
`Faults` once. -/

namespace Sys2Proof

open Machine Claims

/-- Code 0 is kept for a run that halted (R160, R172). -/
theorem Machine.Cause.code_ne_zero (cause : Cause) : cause.code ≠ 0 := by
  cases cause <;> simp [Cause.code]

/-- A run that ended in a fault exits with the code of its cause, which is not zero (R160, R172). -/
theorem Machine.Faults.failedExit {s t : State} {cause : Cause} (h : Faults s t cause) : FailedExit t := by
  have hcode : exitCode t.status = some cause.code := by rw [h.status, exitCode]
  exact ⟨cause.code, hcode, cause.code_ne_zero⟩

/-- Settles O49: on an unknown literal the general row raises the fault, and raising a fault sets the status alone. -/
theorem unknownPrivFaults : Obligations.UnknownPrivFaults := by
  unfold Obligations.UnknownPrivFaults
  intro a b lit s hlit
  have frame := setStatus_faults s (.unknownPriv lit)
  exact ⟨_, execPriv_of_unknown a b lit s hlit, frame, frame.failedExit⟩

end Sys2Proof

/-! PROOF. The stop on a fault (R162): from a faulted state the step answers no next state, so a run of any length that
answers a state has taken no step. -/

namespace Sys2Proof

open Machine Claims

/-- Only the run of no steps answers a state where no step can be taken. -/
theorem run_next_eq_of_no_step {s t : State} (hstep : ∀ u, step s ≠ .next u) (n : Nat) (h : core.run n s = .next t) :
    t = s := by
  cases n with
  | zero => cases h; rfl
  | succ n =>
    cases hr : step s with
    | next u => exact absurd hr (hstep u)
    | fault r | refused r => simp [Host.Core.run, core, hr] at h

/-- Settles O12: a step that is taken starts from a running state, so none is taken from a faulted one. -/
theorem faultedIsTerminal : Obligations.FaultedIsTerminal := by
  unfold Obligations.FaultedIsTerminal
  intro s cause hs
  have hstep : ∀ t, step s ≠ .next t := by
    intro t h
    obtain ⟨hrunning, -⟩ := step_next s t h
    simp [hs] at hrunning
  have hend : ¬ Successful s := by simp [Successful, hs]
  exact ⟨hstep, hend, fun n _ => run_next_eq_of_no_step hstep n⟩

end Sys2Proof

/-! PROOF. The literal of `priv` (R58, R140): five known values and the rest. The decoder turns the known ones into rows
of their own, so the general row it answers holds an unknown literal. -/

namespace Sys2Proof

open Machine Claims

theorem Lit.known_or_unknown (lit : Lit) :
    lit = 0 ∨ lit = 1 ∨ lit = 2 ∨ lit = 3 ∨ lit = 4 ∨ 5 ≤ lit.toNat := by
  simp only [BitVec.toNat_eq, BitVec.reduceToNat]
  omega

theorem privOf_wf (a b : Reg) (lit : Lit) : (privOf a b lit).wf = true := by
  obtain rfl | rfl | rfl | rfl | rfl | hlit := lit.known_or_unknown
  · rfl
  · rfl
  · rfl
  · rfl
  · rfl
  · have ne : ∀ k : Lit, k.toNat < 5 → lit ≠ k := fun k hk he => by subst he; omega
    simp [privOf, ne, Instr.wf, Lit.isUnknownPriv, hlit]

theorem instrOf_wf (o : Op) (f : Fields) : (instrOf o f).wf = true := by
  cases o with
  | priv => exact privOf_wf _ _ _
  | _ => rfl

/-- Every row but the general `priv` row is well-formed by its form, and `privOf` keeps the known literals out of that. -/
theorem decodeWord_wf {w : IWord} {i : Instr} (h : decodeWord w = some i) : i.wf = true := by
  obtain ⟨o, -, rfl⟩ := Option.map_eq_some_iff.mp h
  exact instrOf_wf o _

theorem fetch_wf {s : State} {i : Instr} (h : fetch s = .instr i) : i.wf = true := by
  obtain ⟨-, j, hdecode, hfetch⟩ | ⟨-, -, hfetch⟩ | ⟨-, hfetch⟩ := fetch_cases s
  · obtain rfl : j = i := Fetched.instr.inj (hfetch.symm.trans h)
    exact decodeWord_wf hdecode
  · cases hfetch.symm.trans h
  · cases hfetch.symm.trans h

end Sys2Proof

/-! PROOF. How an instruction can end (R141, R161, R165, R170): one lemma says for every instruction what it may do to
the run status, and the claims about the halt and about input errors are read off it. -/

namespace Sys2Proof

open Machine Claims

/-- The instruction is the halt: the row `priv.halt`, or the general `priv` row at its literal. -/
def Claims.isHalt (i : Instr) : Prop := i = .privHalt ∨ ∃ a b, i = .priv a b 0

theorem Machine.InStream.eq_closed_iff (x : InStream) : x = ⟨[], .closed⟩ ↔ x.items = [] ∧ x.ending = .closed := by
  cases x
  simp

/-- The next input is malformed, or there is none and there will be none. -/
def Claims.BadInput (s : State) : Prop :=
  (∃ rest, s.inStream.items = .malformed :: rest) ∨ s.inStream = ⟨[], .closed⟩

theorem badInput_iff (s : State) :
    BadInput s ↔ (∃ rest, s.inStream.items = .malformed :: rest) ∨
      (s.inStream.items = [] ∧ s.inStream.ending = .closed) := by
  simp only [BadInput, InStream.eq_closed_iff]

/-- The run statuses with which instruction `i`, started in state `s`, can leave the machine. -/
inductive Claims.StatusAfter (i : Instr) (s : State) (st : Status) : Prop where
  | kept (h : st = s.status)
  | halted (h : st = .halted) (hi : isHalt i)
  | inputError (reason : IoReason) (h : st = .faulted (.ioError reason)) (hi : isInput i) (hs : BadInput s)
  | otherFault (cause : Cause) (h : st = .faulted cause) (hcause : ∀ reason, cause ≠ .ioError reason)

/-- An answer whose next state, where there is one, has a status that the instruction can leave. -/
def Claims.Ends (i : Instr) (s : State) (r : Result) : Prop := ∀ t, r = .next t → StatusAfter i s t.status

section Ends

variable {i : Instr} {s : State}

theorem Claims.Ends.next {t : State} (h : StatusAfter i s t.status) : Ends i s (.next t) := by
  intro u hu
  cases hu
  exact h

theorem Claims.Ends.of_status_eq {t : State} (h : t.status = s.status) : Ends i s (.next t) := .next (.kept h)

theorem Claims.Ends.jump (target : Word) : Ends i s (Machine.jump s target) := .of_status_eq rfl

theorem Claims.Ends.raise {cause : Cause} (hcause : ∀ reason, cause ≠ .ioError reason) :
    Ends i s (Machine.raise cause s) := .next (.otherFault cause rfl hcause)

theorem Claims.Ends.halt (hi : isHalt i) : Ends i s (haltMachine s) := .next (.halted rfl hi)

theorem Claims.Ends.ite {c : Prop} [Decidable c] {x y : Result} (hx : Ends i s x) (hy : Ends i s y) :
    Ends i s (if c then x else y) := by
  split
  · exact hx
  · exact hy

/-- The input operation fails on bad input alone; with its gate off, and on a value, the status is kept. -/
theorem Claims.Ends.input (a b : Reg) (hi : isInput i) : Ends i s (inputOp a b s) := by
  obtain ⟨-, hop⟩ | ⟨-, v, rest, -, hop⟩ | ⟨-, rest, hitems, hop⟩ | ⟨-, hitems, hending, hop⟩ | ⟨-, -, -, hop⟩ :=
    inputOp_cases a b s <;> rw [hop]
  · exact .of_status_eq rfl
  · exact .of_status_eq rfl
  · exact .next (.inputError .malformed rfl hi (.inl ⟨rest, hitems⟩))
  · exact .next (.inputError .closed rfl hi ((badInput_iff s).mpr (.inr ⟨hitems, hending⟩)))
  · exact fun t ht => nomatch ht

theorem Claims.Ends.output (a b : Reg) : Ends i s (outputOp a b s) :=
  .ite (.of_status_eq rfl) (.of_status_eq rfl)

theorem call_ends (a : Reg) (s : State) : Ends (.call a) s (execCall a s) := .ite (.of_status_eq rfl) (.raise nofun)

theorem ret_ends (s : State) : Ends .ret s (execReturn s) := .ite (.jump _) (.raise nofun)

/-- The general `priv` row, by its literal (R140). -/
theorem priv_ends (a b : Reg) (lit : Lit) (s : State) : Ends (.priv a b lit) s (execPriv a b lit s) := by
  obtain rfl | rfl | rfl | rfl | rfl | hlit := lit.known_or_unknown
  · exact .halt (.inr ⟨a, b, rfl⟩)
  · exact .of_status_eq rfl
  · exact .of_status_eq rfl
  · exact .input a b ⟨a, b, .inr rfl⟩
  · exact .output a b
  · rw [execPriv_of_unknown a b lit s hlit]
    exact .raise nofun

end Ends

/-- Every instruction keeps the status, but for the halt, for an input on bad input, and for the faults of an address, a
slot, a divisor or a `priv` literal, which are no input errors. -/
theorem exec_ends (i : Instr) (s : State) : Ends i s (exec i s) := by
  cases i with
  | brnz | brgt => exact .ite (.of_status_eq rfl) (.of_status_eq rfl)
  | movLd | movSt => exact .ite (.of_status_eq rfl) (.raise nofun)
  | call a => exact call_ends a s
  | ret => exact ret_ends s
  | div | divf => exact .ite (.raise nofun) (.of_status_eq rfl)
  | priv a b lit => exact priv_ends a b lit s
  | privHalt => exact .halt (.inl rfl)
  | privInput a b => exact .input a b ⟨a, b, .inl rfl⟩
  | privOutput a b => exact .output a b
  | _ => exact .of_status_eq rfl

theorem isHalt_of_exec_halted {i : Instr} {s t : State} (hs : s.status = .running) (h : exec i s = .next t)
    (ht : t.status = .halted) : isHalt i := by
  cases exec_ends i s t h with
  | kept hst => simp [hs, ht] at hst
  | halted _ hi => exact hi
  | inputError _ hst | otherFault _ hst => simp [ht] at hst

/-- The halt that a fetch answers is the row of its own. -/
theorem eq_privHalt_of_isHalt {i : Instr} (hwf : i.wf = true) (hi : isHalt i) : i = .privHalt := by
  obtain rfl | ⟨a, b, rfl⟩ := hi
  · rfl
  · cases hwf

/-- Settles O14: among the instructions only the halt leaves `HALTED`, the fetch answers it as the row of its own, and a
fault of the fetch is no halt. -/
theorem haltIsTheOnlySuccessfulEnd : Obligations.HaltIsTheOnlySuccessfulEnd := by
  unfold Obligations.HaltIsTheOnlySuccessfulEnd
  constructor
  · exact fun s => ⟨s.setStatus .halted, rfl, rfl, fun _ => rfl, fun _ => rfl, rfl, rfl, rfl⟩
  · intro s t hstep ht
    obtain ⟨hs, ⟨i, hfetch, hexec⟩ | ⟨cause, -, rfl⟩⟩ := step_next s t hstep
    · rw [hfetch, eq_privHalt_of_isHalt (fetch_wf hfetch) (isHalt_of_exec_halted hs hexec ht)]
    · cases ht

theorem isInput_and_badInput_of_exec_ioError {i : Instr} {s t : State} {reason : IoReason} (hs : s.status = .running)
    (h : exec i s = .next t) (ht : t.status = .faulted (.ioError reason)) : isInput i ∧ BadInput s := by
  cases exec_ends i s t h with
  | kept hst => simp [hs, ht] at hst
  | halted hst => simp [ht] at hst
  | inputError _ _ hi hbad => exact ⟨hi, hbad⟩
  | otherFault cause hst hcause =>
    rw [ht, Status.faulted.injEq] at hst
    exact absurd hst.symm (hcause reason)

/-- An open input faults on bad input, which rules out an item to read and a wait. -/
theorem privInput_faults_of_badInput (a b : Reg) {s : State} (hgate : s.reg b = 0) (hs : BadInput s) :
    ∃ u t reason, exec (.privInput a b) s = .next t ∧ Faults u t (.ioError reason) := by
  rw [badInput_iff] at hs
  obtain ⟨hoff, -⟩ | ⟨-, v, rest, hitems, -⟩ | ⟨-, rest, -, hop⟩ | ⟨-, -, -, hop⟩ | ⟨-, hitems, hending, -⟩ :=
    inputOp_cases a b s
  · exact absurd hgate hoff
  · simp [hitems] at hs
  · exact ⟨_, _, _, hop, setStatus_faults _ _⟩
  · exact ⟨_, _, _, hop, setStatus_faults _ _⟩
  · simp [hitems, hending] at hs

/-- An input whose gate is off advances the pc and does no more (R144; D25, log entry 26). -/
theorem privInput_of_ne (a b : Reg) {s : State} (hgate : s.reg b ≠ 0) : exec (.privInput a b) s = .next s.advance :=
  if_neg fun hz => hgate ((isZero_iff _).mp hz)

/-- An output keeps the status, its gate on or off (R145). -/
theorem privOutput_status (a b : Reg) (s : State) : ∃ t, exec (.privOutput a b) s = .next t ∧ t.status = s.status := by
  obtain ⟨-, hop⟩ | ⟨-, hop⟩ := outputOp_cases a b s
  · exact ⟨_, hop, rfl⟩
  · exact ⟨_, hop, rfl⟩

/-- Settles O47: an open input raises the error on bad input; that nothing else records one is what every instruction may
do to the status. -/
theorem onlyAnOpenInputCanFail : Obligations.OnlyAnOpenInputCanFail := by
  unfold Obligations.OnlyAnOpenInputCanFail
  refine ⟨?fails, ?onlyInput, privOutput_status, ?gateOff⟩
  case fails =>
    intro a b s hgate hs
    obtain ⟨u, t, reason, hexec, hfault⟩ := privInput_faults_of_badInput a b hgate hs
    exact ⟨t, reason, hexec, hfault.status, hfault.failedExit⟩
  case onlyInput => exact fun i s t reason hs h ht => isInput_and_badInput_of_exec_ioError hs h ht
  case gateOff => exact fun a b s hgate => ⟨s.advance, privInput_of_ne a b hgate, rfl, rfl⟩

end Sys2Proof

/-! PROOF. The mode (R147, R173): an instruction that is no mode switch commutes with setting the mode, because no test
and no value of its meaning reads it; that it keeps the mode is the same fact at the mode the state has. -/

namespace Sys2Proof

open Machine Claims

/-- A change of the next state goes through a test that does not see it. -/
theorem ite_eq_mapNext_ite {f : State → State} {c : Prop} [Decidable c] {x y x' y' : Result} (hx : x' = mapNext f x)
    (hy : y' = mapNext f y) : (if c then x' else y') = mapNext f (if c then x else y) := by
  rw [apply_ite (mapNext f), hx, hy]

theorem inputOp_setMode (a b : Reg) (s : State) (m : Mode) :
    inputOp a b (s.setMode m) = mapNext (fun t => t.setMode m) (inputOp a b s) := by
  refine ite_eq_mapNext_ite ?_ rfl
  simp only [State.setMode_inStream]
  cases s.inStream.take <;> rfl

theorem outputOp_setMode (a b : Reg) (s : State) (m : Mode) :
    outputOp a b (s.setMode m) = mapNext (fun t => t.setMode m) (outputOp a b s) :=
  ite_eq_mapNext_ite rfl rfl

theorem execPriv_setMode (a b : Reg) (lit : Lit) (s : State) (m : Mode) (hi : ¬ isModeSwitch (.priv a b lit)) :
    execPriv a b lit (s.setMode m) = mapNext (fun t => t.setMode m) (execPriv a b lit s) := by
  obtain rfl | rfl | rfl | rfl | rfl | hlit := lit.known_or_unknown
  · rfl
  · exact absurd (.inr (.inr ⟨a, b, .inl rfl⟩)) hi
  · exact absurd (.inr (.inr ⟨a, b, .inr rfl⟩)) hi
  · exact inputOp_setMode a b s m
  · exact outputOp_setMode a b s m
  · rw [execPriv_of_unknown a b lit _ hlit, execPriv_of_unknown a b lit _ hlit]
    rfl

/-- The instructions with a test have one argument, those without are the same state update on either mode. -/
theorem exec_setMode {i : Instr} (hi : ¬ isModeSwitch i) (s : State) (m : Mode) :
    exec i (s.setMode m) = mapNext (fun t => t.setMode m) (exec i s) := by
  cases i with
  | brnz | brgt | movLd | movSt | div | divf => exact ite_eq_mapNext_ite rfl rfl
  | call | ret => simp only [exec]; exact ite_eq_mapNext_ite rfl rfl
  | priv a b lit => exact execPriv_setMode a b lit s m hi
  | privInput a b => exact inputOp_setMode a b s m
  | privOutput a b => exact outputOp_setMode a b s m
  | privEnterSupervisor => exact absurd (.inl rfl) hi
  | privEnterUser => exact absurd (.inr (.inl rfl)) hi
  | _ => rfl

theorem exec_mode {i : Instr} (hi : ¬ isModeSwitch i) {s t : State} (h : exec i s = .next t) : t.mode = s.mode := by
  have hself : exec i s = .next (t.setMode s.mode) := by
    calc exec i s = mapNext (fun t => t.setMode s.mode) (exec i s) := exec_setMode hi s s.mode
      _ = .next (t.setMode s.mode) := by rw [h]; rfl
  have ht : t = t.setMode s.mode := Host.Outcome.next.inj (h.symm.trans hself)
  rw [ht, State.setMode_mode]

/-- A mode switch overwrites the mode, whatever it was (R142, R143). -/
theorem modeSwitch_setMode {i : Instr} (hi : isModeSwitch i) (s : State) (m : Mode) :
    exec i (s.setMode m) = exec i s := by
  obtain rfl | rfl | ⟨a, b, rfl | rfl⟩ := hi
  · rfl
  · rfl
  · rfl
  · rfl

/-- Settles O45: each switch writes its mode over any other, every other instruction commutes with setting the mode, and
the fetch reads the pc and memory alone. -/
theorem modeIsTrackedNotEnforced : Obligations.ModeIsTrackedNotEnforced := by
  unfold Obligations.ModeIsTrackedNotEnforced
  exact ⟨State.reset_mode, fun _ => ⟨_, rfl, rfl⟩, fun _ => ⟨_, rfl, rfl⟩, fun _ _ _ h hi => exec_mode hi h,
    fun _ s m hi => exec_setMode hi s m, fun _ s m hi => modeSwitch_setMode hi s m, fun _ _ => rfl⟩

end Sys2Proof

/-! PROOF. The arithmetic faults (R164): an arithmetic instruction without a zero divisor writes one register, so it
completes; the two divisions by zero raise their faults. -/

namespace Sys2Proof

open Machine Claims

theorem div_writes {s : State} {c : Reg} (a b : Reg) (hc : s.reg c ≠ 0) :
    Writes (.div a b c) s a (signedQuotient (s.reg b) (s.reg c)) :=
  writes_of_exec_eq_writeBack (execDiv_of_ne a b c s hc)

theorem divf_writes {s : State} {c : Reg} (a b : Reg) (hc : s.reg c ≠ 0) (hneg : s.reg c ≠ 0x8000000000000000) :
    Writes (.divf a b c) s a (fpResult .divf (s.reg b) (s.reg c)) :=
  writes_of_exec_eq_writeBack (execDivf_of_nonZero a b c s (fpIsZero_of_ne _ hc hneg))

theorem arithmetic_writes {i : Instr} {s : State} (hi : isArithmetic i = true) (hdivisor : divisor i s ≠ some 0)
    (hneg : ∀ a b c, i = .divf a b c → s.reg c ≠ 0x8000000000000000) : ∃ a v, Writes i s a v := by
  cases i with
  | shftr | shftri | shftl | shftli => exact ⟨_, _, writes_of_exec_eq_writeBack rfl⟩
  | add | addi | sub | subi | mul => exact ⟨_, _, writes_of_exec_eq_writeBack rfl⟩
  | addf | subf | mulf => exact ⟨_, _, writes_of_exec_eq_writeBack rfl⟩
  | div a b c => exact ⟨_, _, div_writes a b fun hc => hdivisor (congrArg some hc)⟩
  | divf a b c => exact ⟨_, _, divf_writes a b (fun hc => hdivisor (congrArg some hc)) (hneg a b c rfl)⟩
  | _ => cases hi

/-- Only the two divisions have a divisor. -/
theorem divisor_eq_some_cases {i : Instr} {s : State} {v : Word} (h : divisor i s = some v) :
    ∃ a b c, s.reg c = v ∧ (i = .div a b c ∨ i = .divf a b c) := by
  cases i with
  | div a b c => exact ⟨a, b, c, Option.some.inj h, .inl rfl⟩
  | divf a b c => exact ⟨a, b, c, Option.some.inj h, .inr rfl⟩
  | _ => cases h

theorem exec_faults_of_zero_divisor {i : Instr} {s : State} (h : divisor i s = some 0) :
    ∃ t cause, exec i s = .next t ∧ Faults s t cause ∧ (cause = .divZero ∨ cause = .fDivZero) := by
  obtain ⟨a, b, c, hc, rfl | rfl⟩ := divisor_eq_some_cases h
  · exact ⟨_, .divZero, execDiv_of_eq a b c s hc, setStatus_faults s _, .inl rfl⟩
  · have hzero : fpIsZero (s.reg c) = true := by rw [hc]; decide
    exact ⟨_, .fDivZero, execDivf_of_zero a b c s hzero, setStatus_faults s _, .inr rfl⟩

/-- Settles O29: a zero divisor raises one of the two faults, and every other arithmetic instruction writes its result,
which keeps the status and advances the pc. -/
theorem onlyDivisionByZeroIsAnArithmeticFault : Obligations.OnlyDivisionByZeroIsAnArithmeticFault := by
  unfold Obligations.OnlyDivisionByZeroIsAnArithmeticFault
  intro i s hi
  constructor
  · intro hdivisor
    obtain ⟨t, cause, hexec, hfault, hcause⟩ := exec_faults_of_zero_divisor hdivisor
    exact ⟨t, cause, hexec, hfault.status, hcause, hfault.failedExit⟩
  · intro hdivisor hneg
    obtain ⟨a, v, t, hexec, hframe⟩ := arithmetic_writes hi hdivisor hneg
    exact ⟨t, hexec, hframe.control.status, hframe.pc⟩

end Sys2Proof

/-! PROOF. Decoding after encoding (R52 to R63). Decoding a word is `instrOf` on its fields, and the fields of an
instruction hold its operation's number and its own register numbers and literal; so the round trip is `instrOf` undoing
`fieldsOf`, where the one row that needs well-formedness is `priv` with an unknown literal. -/

namespace Sys2Proof

open Machine Claims

/-! ### The opcode map -/

theorem opmap_nodup : opmap.Nodup := by decide

theorem numberOfOp_lt (o : Op) : numberOfOp o < 30 := by
  cases o <;> decide

/-- A number selects an operation exactly when it is one of the 30 of the table (R55, R57). -/
theorem opOfNumber_eq_some_iff (n : Nat) : (∃ o, opOfNumber n = some o) ↔ n < 30 := by
  rw [← Option.isSome_iff_exists, opOfNumber, isSome_getElem?]
  rfl

/-- The table holds no operation twice, so the position of an operation is the number that selects it. -/
theorem numberOfOp_of_opOfNumber {n : Nat} {o : Op} (h : opOfNumber n = some o) : numberOfOp o = n := by
  obtain ⟨hn, rfl⟩ := List.getElem?_eq_some_iff.mp h
  exact opmap_nodup.idxOf_getElem n hn

/-- Settles O5: each direction is one of the two facts that position and number are inverse. -/
theorem opcodeMapIsABijection : Obligations.OpcodeMapIsABijection := by
  unfold Obligations.OpcodeMapIsABijection
  refine ⟨fun o => ⟨numberOfOp_lt o, opOfNumber_numberOfOp o⟩, ?selected, ?unselected⟩
  case unselected => exact fun n hn => List.getElem?_eq_none hn
  intro n hn
  obtain ⟨o, ho⟩ := (opOfNumber_eq_some_iff n).mpr hn
  exact ⟨o, ho, numberOfOp_of_opOfNumber ho⟩

/-! ### Words -/

theorem decodeWord_encodeFields (f : Fields) :
    decodeWord (encodeFields f) = (opOfNumber f.op.toNat).map fun o => instrOf o f := by
  rw [decodeWord, decodeFields_encodeFields]

/-- The opcode field of an instruction holds the number of its operation. -/
theorem fieldsOf_op (i : Instr) : (fieldsOf i).op = opBits i.op := by
  cases i <;> rfl

theorem decodeWord_encodeWord_eq_instrOf (i : Instr) :
    decodeWord (encodeWord i) = some (instrOf i.op (fieldsOf i)) := by
  rw [encodeWord, decodeWord_encodeFields, fieldsOf_op, opBits_toNat, opOfNumber_numberOfOp]
  rfl

theorem privOf_of_unknown (a b : Reg) (lit : Lit) (h : 5 ≤ lit.toNat) : privOf a b lit = .priv a b lit := by
  have ne : ∀ k : Lit, k.toNat < 5 → lit ≠ k := fun k hk he => by subst he; omega
  simp [privOf, ne]

/-- The fields of an instruction give it back: they hold all its operands, and only the general `priv` row, at a literal
that is a row of its own, would be read as something else. -/
theorem instrOf_fieldsOf {i : Instr} (h : i.wf = true) : instrOf i.op (fieldsOf i) = i := by
  cases i with
  | priv a b lit => exact privOf_of_unknown a b lit (of_decide_eq_true h)
  | _ => rfl

theorem decodeWord_encodeWord {i : Instr} (h : i.wf = true) : decodeWord (encodeWord i) = some i := by
  rw [decodeWord_encodeWord_eq_instrOf, instrOf_fieldsOf h]

/-! ### Bytes -/

/-- Four bytes decode to an instruction exactly when the word they make does (R34, R50). -/
theorem decode_append_eq_ok_iff {bs : List Byte} (hbs : bs.length = 4) (rest : List Byte) (i : Instr) :
    decode (bs ++ rest) = .ok i ↔ decodeWord (BitVec.ofNat 32 (leValue bs)) = some i := by
  obtain ⟨b0, b1, b2, b3, rfl⟩ := List.length_eq_four.mp hbs
  simp only [List.cons_append, List.nil_append, decode]
  cases decodeWord (BitVec.ofNat 32 (leValue [b0, b1, b2, b3])) <;> simp

/-- The four bytes of a number, least significant first, are read as its low 32 bits (R34). -/
theorem ofNat_leValue_leBytes (n : Nat) : BitVec.ofNat 32 (leValue (leBytes 4 n)) = BitVec.ofNat 32 n := by
  apply BitVec.eq_of_toNat_eq
  rw [leValue_leBytes, BitVec.toNat_ofNat, BitVec.toNat_ofNat, show 256 ^ 4 = 2 ^ 32 from rfl, Nat.mod_mod]

theorem decode_leBytes_append_eq_ok_iff (n : Nat) (rest : List Byte) (i : Instr) :
    decode (leBytes 4 n ++ rest) = .ok i ↔ decodeWord (BitVec.ofNat 32 n) = some i := by
  rw [decode_append_eq_ok_iff (leBytes_length 4 n), ofNat_leValue_leBytes]

/-- Settles O2: `instrOf` undoes `fieldsOf` on well-formed terms, and four bytes are read as the word they were cut
from. -/
theorem decodeOfEncodeIsTheInstruction : Obligations.DecodeOfEncodeIsTheInstruction := by
  unfold Obligations.DecodeOfEncodeIsTheInstruction
  intro i hwf
  have hword : decodeWord (encodeWord i) = some i := decodeWord_encodeWord hwf
  refine ⟨hword, fun rest => (decode_leBytes_append_eq_ok_iff _ rest i).mpr ?_⟩
  rwa [BitVec.ofNat_toNat, BitVec.setWidth_eq]

/-- Settles O3: a decoded term is well-formed, so its own word decodes to it again. -/
theorem decodedInstructionsAreWellFormed : Obligations.DecodedInstructionsAreWellFormed := by
  unfold Obligations.DecodedInstructionsAreWellFormed
  intro w i hdecode
  have hwf : i.wf = true := decodeWord_wf hdecode
  exact ⟨hwf, by rw [decodeWord_encodeWord hwf, hdecode]⟩

/-! ### Ignored fields -/

/-- The literals 0 to 2 of `priv` drop the register fields (R58, R140). -/
theorem privOf_congr {a b a' b' : Reg} {lit : Lit} (ha : 3 ≤ lit.toNat → a' = a) (hb : 3 ≤ lit.toNat → b' = b) :
    privOf a' b' lit = privOf a b lit := by
  by_cases hlit : 3 ≤ lit.toNat
  · rw [ha hlit, hb hlit]
  · obtain rfl | rfl | rfl | rfl | rfl | hunknown := lit.known_or_unknown
    · rfl
    · rfl
    · rfl
    · exact absurd (by decide) hlit
    · exact absurd (by decide) hlit
    · omega

/-- The term of an operation is made of the fields that R54 lists for it. -/
theorem instrOf_congr {o : Op} {f g : Fields} (hlit : usesLit o = true → g.lit = f.lit)
    (ha : usesA o f.lit = true → g.a = f.a) (hb : usesB o f.lit = true → g.b = f.b) (hc : usesC o = true → g.c = f.c) :
    instrOf o g = instrOf o f := by
  cases o with
  | priv =>
    simp only [instrOf, hlit rfl]
    exact privOf_congr (fun h => by rw [ha (decide_eq_true h)]) (fun h => by rw [hb (decide_eq_true h)])
  | ret => rfl
  | brr2 => simp only [instrOf, hlit rfl]
  | br | brr1 | call => simp only [instrOf, ha rfl]
  | shftri | shftli | movHi | addi | subi => simp only [instrOf, ha rfl, hlit rfl]
  | not | brnz | movRr => simp only [instrOf, ha rfl, hb rfl]
  | movLd | movSt => simp only [instrOf, ha rfl, hb rfl, hlit rfl]
  | _ => simp only [instrOf, ha rfl, hb rfl, hc rfl]

/-- Settles O4: legality is the opcode's alone, and what the decoder makes of the fields is `instrOf`. -/
theorem ignoredFieldsChangeNothing : Obligations.IgnoredFieldsChangeNothing := by
  unfold Obligations.IgnoredFieldsChangeNothing
  refine ⟨?legal, ?ignored, ?unknown⟩
  case legal =>
    intro w
    rw [← opOfNumber_eq_some_iff, ← Option.isSome_iff_exists, ← Option.isSome_iff_exists, decodeWord, Option.isSome_map]
  case ignored =>
    intro w v o ho hop hlit ha hb hc
    rw [decodeWord, decodeWord, hop, ho, Option.map_some, Option.map_some, instrOf_congr hlit ha hb hc]
  case unknown =>
    intro a b a' b' lit s hlit
    exact (execPriv_of_unknown a b lit s hlit).trans (execPriv_of_unknown a' b' lit s hlit).symm

/-! ### The rows of the table -/

/-- The fields of R51's formula. -/
def Claims.wordFields (op : Nat) (a b c : Reg) (lit : Lit) : Fields := ⟨.ofNat 5 op, .ofFin a, .ofFin b, .ofFin c, lit⟩

theorem word_eq_encodeFields (op : Nat) (a b c : Reg) (lit : Lit) :
    word op a b c lit = encodeFields (wordFields op a b c lit) := by
  apply BitVec.eq_of_toNat_eq
  have ha := a.isLt
  have hb := b.isLt
  have hc := c.isLt
  have hlit := lit.isLt
  simp only [word, encodeFields_toNat, wordFields, BitVec.toNat_ofNat, BitVec.toNat_ofFin]
  omega

/-- The word of R51's formula decodes by its opcode number. -/
theorem decodeWord_word {op : Nat} (hop : op < 32) (a b c : Reg) (lit : Lit) :
    decodeWord (word op a b c lit) = (opOfNumber op).map fun o => instrOf o (wordFields op a b c lit) := by
  rw [word_eq_encodeFields, decodeWord_encodeFields]
  simp only [wordFields, BitVec.toNat_ofNat, Nat.mod_eq_of_lt hop]

/-- A row of the table: the operation that the number selects, and the term it makes of the fields. -/
theorem decodeWord_word_eq_some {op : Nat} {a b c : Reg} {lit : Lit} {i : Instr} (hop : opOfNumber op = some i.op)
    (hi : instrOf i.op (wordFields op a b c lit) = i) : decodeWord (word op a b c lit) = some i := by
  have hlt : op < 30 := (opOfNumber_eq_some_iff op).mp ⟨i.op, hop⟩
  rw [decodeWord_word (by omega), hop, Option.map_some, hi]

/-- Settles O6: a word is looked up by its opcode number, and the row's term is what `instrOf` makes of its fields. -/
theorem wordsOfTheTableDecode : Obligations.WordsOfTheTableDecode := by
  unfold Obligations.WordsOfTheTableDecode
  intro a b c lit
  have row {op : Nat} {lit : Lit} {i : Instr} (hop : opOfNumber op = some i.op)
      (hi : instrOf i.op (wordFields op a b c lit) = i) : decodeWord (word op a b c lit) = some i :=
    decodeWord_word_eq_some hop hi
  have unknownPriv (hlit : 5 ≤ lit.toNat) : decodeWord (word 15 a b c lit) = some (.priv a b lit) :=
    row rfl (privOf_of_unknown a b lit hlit)
  exact ⟨row rfl rfl, row rfl rfl, row rfl rfl, row rfl rfl, row rfl rfl, row rfl rfl, row rfl rfl, row rfl rfl,
    row rfl rfl, row rfl rfl, row rfl rfl, row rfl rfl, row rfl rfl, row rfl rfl, row rfl rfl, row rfl rfl, row rfl rfl,
    row rfl rfl, row rfl rfl, row rfl rfl, unknownPriv, row rfl rfl, row rfl rfl, row rfl rfl, row rfl rfl, row rfl rfl,
    row rfl rfl, row rfl rfl, row rfl rfl, row rfl rfl, row rfl rfl, row rfl rfl, row rfl rfl, row rfl rfl, row rfl rfl,
    decodeWord_word (by decide) a b c lit, decodeWord_word (by decide) a b c lit⟩

/-- Settles O7: closed words, each evaluated by the decoder. -/
theorem exampleWordsDecode : Obligations.ExampleWordsDecode := by
  unfold Obligations.ExampleWordsDecode
  exact ⟨by decide, by decide, by decide, by decide, by decide⟩

end Sys2Proof

/-! PROOF. What memory reads after several bytes, a word, eight bytes or an image were written (R34, R191): outside the
bytes written it reads as before, inside it reads what was written. -/

namespace Sys2Proof

open Machine Claims

/-! ### Bytes outside those written, in any memory -/

/-- A byte in front of a list is not seen at another address, whether the list is canonical or not. -/
theorem Machine.Memory.read_cons_of_ne {addr a : Nat} (v : Byte) (rest : Memory) (h : a ≠ addr) :
    (Memory.cons addr v rest).read a = rest.read a := by
  unfold Memory.cons
  split
  · rfl
  · rw [Memory.read, if_neg h.symm]

theorem Machine.Memory.read_write_of_ne {addr a : Nat} (m : Memory) (v : Byte) (h : a ≠ addr) :
    (m.write addr v).read a = m.read a := by
  induction m with
  | nil => exact Memory.read_cons_of_ne v [] h
  | cons cell rest ih =>
    obtain ⟨b, u⟩ := cell
    unfold Memory.write
    split
    · exact Memory.read_cons_of_ne v _ h
    · split
      · next heq =>
        subst heq
        rw [Memory.read_cons_of_ne v _ h, Memory.read, if_neg h.symm]
      · rw [Memory.read, Memory.read, ih]

theorem Machine.Memory.read_writeBytes_outside {addr a : Nat} (m : Memory) (bs : List Byte)
    (h : a < addr ∨ addr + bs.length ≤ a) : (m.writeBytes addr bs).read a = m.read a := by
  induction bs generalizing m addr with
  | nil => rfl
  | cons b bs ih =>
    rw [List.length_cons] at h
    rw [Memory.writeBytes, ih _ (by omega), Memory.read_write_of_ne m b (by omega)]

theorem Machine.Memory.read_writeNum_outside {addr n a : Nat} (m : Memory) (v : Nat) (h : a < addr ∨ addr + n ≤ a) :
    (m.writeNum addr n v).read a = m.read a :=
  Memory.read_writeBytes_outside m _ (by rwa [leBytes_length])

/-- An image changes no byte below its first word and none above its last (R191). -/
theorem Machine.Memory.read_loadImage_outside {addr a : Nat} (m : Memory) (image : List IWord)
    (h : a < addr ∨ addr + 4 * image.length ≤ a) : (m.loadImage addr image).read a = m.read a := by
  induction image generalizing m addr with
  | nil => rfl
  | cons w ws ih =>
    rw [List.length_cons] at h
    rw [Memory.loadImage, ih _ (by simp only [Config.ilen]; omega)]
    exact Memory.read_writeNum_outside m _ (by simp only [Config.ilen]; omega)

/-! ### Numbers and words read back -/

theorem Machine.Memory.readBytes_writeBytes_same {m : Memory} (h : m.wf = true) (addr : Nat) (bs : List Byte) :
    (m.writeBytes addr bs).readBytes addr bs.length = bs := by
  apply List.ext_getElem (Memory.readBytes_length _ _ _)
  intro k _ hk
  rw [Memory.readBytes_getElem, Memory.read_writeBytes _ _ _ _ h, dif_pos (by omega)]
  simp only [Nat.add_sub_cancel_left]

/-- A number written is read back, as far as the bytes hold it. -/
theorem Machine.Memory.readNum_writeNum_same {m : Memory} (h : m.wf = true) (addr n v : Nat) :
    (m.writeNum addr n v).readNum addr n = v % 256 ^ n := by
  have hbytes := Memory.readBytes_writeBytes_same h addr (leBytes n v)
  rw [leBytes_length] at hbytes
  rw [Memory.readNum, Memory.writeNum, hbytes, leValue_leBytes]

theorem Machine.State.store8_load8 {s : State} (h : s.mem.wf = true) (addr v : Word) :
    (s.store8 addr v).load8 addr = v := by
  apply BitVec.eq_of_toNat_eq
  have hv := v.isLt
  rw [State.load8, State.store8_mem, Memory.readNum_writeNum_same h, BitVec.toNat_ofNat,
    show 256 ^ Config.dlen = 2 ^ 64 from rfl, Nat.mod_mod, Nat.mod_eq_of_lt hv]

theorem Machine.Memory.readNum_writeWord_same {m : Memory} (h : m.wf = true) (addr : Nat) (w : IWord) :
    (m.writeWord addr w).readNum addr 4 = w.toNat :=
  (Memory.readNum_writeNum_same h addr 4 w.toNat).trans (Nat.mod_eq_of_lt w.isLt)

/-- Word `k` of an image reads back `4k` bytes on: it is written at its place, and the words after it lie above. -/
theorem Machine.Memory.readNum_loadImage {m : Memory} (h : m.wf = true) (addr : Nat) (image : List IWord) {k : Nat}
    (hk : k < image.length) : (m.loadImage addr image).readNum (addr + 4 * k) 4 = image[k].toNat := by
  induction image generalizing m addr k with
  | nil => simp at hk
  | cons w ws ih =>
    have hwf : (m.writeWord addr w).wf = true := Memory.writeWord_wf m addr w h
    cases k with
    | zero =>
      calc (m.loadImage addr (w :: ws)).readNum addr 4
          = (m.writeWord addr w).readNum addr 4 :=
            Memory.readNum_congr _ _ _ _ fun j hj =>
              Memory.read_loadImage_outside _ ws (by simp only [Config.ilen]; omega)
        _ = w.toNat := Memory.readNum_writeWord_same h addr w
    | succ k =>
      rw [show addr + 4 * (k + 1) = addr + 4 + 4 * k by omega]
      exact ih hwf (addr + 4) (by simpa using hk)

/-! ### The image and the invariant's bounds -/

theorem Machine.Memory.writeWord_within {m : Memory} {addr size : Nat} (w : IWord) (ha : addr + 4 ≤ size)
    (h : m.within size = true) : (m.writeWord addr w).within size = true :=
  Memory.writeNum_within m addr 4 _ size ha h

theorem Machine.Memory.loadImage_within {m : Memory} {addr size : Nat} (image : List IWord)
    (ha : addr + 4 * image.length ≤ size) (h : m.within size = true) :
    (m.loadImage addr image).within size = true := by
  induction image generalizing m addr with
  | nil => exact h
  | cons w ws ih =>
    rw [List.length_cons] at ha
    exact ih (by simp only [Config.ilen]; omega) (Memory.writeWord_within w (by omega) h)

/-- A word that fits in memory is read from its address as a number, without wrap-around. -/
theorem Machine.State.load4_ofNat (s : State) {addr : Nat} (h : addr + 4 ≤ 524288) {w : IWord}
    (hw : s.mem.readNum addr 4 = w.toNat) : s.load4 (BitVec.ofNat 64 addr) = w := by
  apply BitVec.eq_of_toNat_eq
  have haddr : (BitVec.ofNat 64 addr).toNat = addr := Nat.mod_eq_of_lt (by omega)
  rw [State.load4, haddr, Config.ilen, hw, BitVec.toNat_ofNat, Nat.mod_eq_of_lt w.isLt]

/-! ### Reset and the image -/

/-- Settles O8: the registers are the reset vector, the rest is written in the reset state. -/
theorem resetState : Obligations.ResetState := by
  unfold Obligations.ResetState
  refine ⟨?others, State.reset_reg 31, rfl, State.reset_mode, State.reset_status, fun _ => rfl, State.reset_outStream⟩
  case others =>
    intro i hi
    rw [State.reset_reg, Config.sp, if_neg hi]

/-- The reset state with an image laid down and an input supplied, whether the image fits or not. -/
def Machine.State.booted (image : List IWord) (input : InStream) : State :=
  (State.reset.setMem (State.reset.mem.loadImage loadBase image)).setIn input

theorem boot_of_fits {image : List IWord} (h : 4096 + 4 * image.length ≤ 524288) (input : InStream) :
    boot image input = .ready (State.booted image input) :=
  if_pos h

theorem boot_of_not_fits {image : List IWord} (h : 524288 < 4096 + 4 * image.length) (input : InStream) :
    boot image input = .loadError :=
  if_neg (Nat.not_le.mpr h)

theorem boot_eq_ready {image : List IWord} {input : InStream} {s : State} (h : boot image input = .ready s) :
    4096 + 4 * image.length ≤ 524288 ∧ s = State.booted image input := by
  by_cases hfits : 4096 + 4 * image.length ≤ 524288
  · rw [boot_of_fits hfits] at h
    exact ⟨hfits, (Booted.ready.inj h).symm⟩
  · rw [boot_of_not_fits (by omega)] at h
    cases h

/-- Settles O9: the loader's words read back from the empty memory of reset, and outside them it is still empty. -/
theorem bootLaysDownTheImage : Obligations.BootLaysDownTheImage := by
  unfold Obligations.BootLaysDownTheImage
  intro image input
  refine ⟨fun hfits => ?_, fun hlarge => boot_of_not_fits hlarge input⟩
  refine ⟨_, boot_of_fits hfits input, fun _ => rfl, rfl, rfl, rfl, rfl, rfl, ?words, ?blank⟩
  case words =>
    intro k hk
    exact State.load4_ofNat _ (by omega) (Memory.readNum_loadImage State.reset_mem_wf.1 4096 image hk)
  case blank =>
    intro addr haddr
    exact Memory.read_loadImage_outside State.reset.mem image haddr

/-- A state that has not stopped has no stop to witness. -/
theorem Machine.Inv.of_running {s : State} (hwf : s.mem.wf = true) (hwithin : s.mem.within memSize = true)
    (hs : s.status = .running) : Inv s :=
  ⟨hwf, hwithin, fun hstopped => absurd hs hstopped⟩

/-- Settles O57: memory is empty and the machine runs. -/
theorem resetHasTheInvariant : Obligations.ResetHasTheInvariant := by
  unfold Obligations.ResetHasTheInvariant
  obtain ⟨hwf, hwithin⟩ := State.reset_mem_wf
  exact .of_running hwf hwithin State.reset_status

/-- Settles O58: the loader's writes keep the canonical form and, for an image that fits, the bounds. -/
theorem bootHasTheInvariant : Obligations.BootHasTheInvariant := by
  unfold Obligations.BootHasTheInvariant
  intro image input s hboot
  obtain ⟨hfits, rfl⟩ := boot_eq_ready hboot
  obtain ⟨hwf, hwithin⟩ := State.reset_mem_wf
  exact .of_running (Memory.loadImage_wf _ _ image hwf) (Memory.loadImage_within image hfits hwithin) rfl

end Sys2Proof

/-! PROOF. The front of a step (R150 to R153): where the pc is in bounds, the word at it decides by its opcode alone. -/

namespace Sys2Proof

open Machine Claims

theorem fetch_of_decodeWord {s : State} {i : Instr} (hpc : s.pc.toNat + 4 ≤ 524288)
    (h : decodeWord (s.load4 s.pc) = some i) : fetch s = .instr i := by
  obtain ⟨-, j, hdecode, hfetch⟩ | ⟨-, hdecode, -⟩ | ⟨hbad, -⟩ := fetch_cases s
  · rw [hfetch, Option.some.inj (hdecode.symm.trans h)]
  · exact nomatch hdecode.symm.trans h
  · exact absurd hpc hbad

theorem step_of_decodeWord {s : State} {i : Instr} (hs : s.status = .running) (hpc : s.pc.toNat + 4 ≤ 524288)
    (h : decodeWord (s.load4 s.pc) = some i) : step s = exec i s := by
  rw [step_running s hs, fetch_of_decodeWord hpc h]

theorem step_of_fetch_fault {s : State} {cause : Cause} (hs : s.status = .running) (h : fetch s = .fault cause) :
    ∃ t, step s = .next t ∧ Faults s t cause :=
  ⟨s.setStatus (.faulted cause), by rw [step_running s hs, h], setStatus_faults s cause⟩

/-- Settles O10: the four bytes at the pc make the word that a fetch reads, so the two clauses have one reason. -/
theorem stepRunsTheDecodedInstruction : Obligations.StepRunsTheDecodedInstruction := by
  unfold Obligations.StepRunsTheDecodedInstruction
  intro s i hs hpc
  refine ⟨step_of_decodeWord hs hpc, fun hbytes => step_of_decodeWord hs hpc ?_⟩
  have hlen : (s.mem.readBytes s.pc.toNat 4).length = 4 := Memory.readBytes_length _ _ _
  rw [← List.append_nil (s.mem.readBytes s.pc.toNat 4)] at hbytes
  exact (decode_append_eq_ok_iff hlen [] i).mp hbytes

theorem fetch_of_pc_outOfBounds {s : State} (h : 524288 < s.pc.toNat + 4) : fetch s = .fault (.pcBounds s.pc) :=
  if_neg (Nat.not_le.mpr h)

/-- A word from opcode 30 on is no instruction (R57, R59). -/
theorem decodeWord_eq_none {w : IWord} (h : 30 * 2 ^ 27 ≤ w.toNat) : decodeWord w = none := by
  have hop : opOfNumber (decodeFields w).op.toNat = none :=
    List.getElem?_eq_none (by rw [decodeFields_op_toNat]; change 30 ≤ _; omega)
  rw [decodeWord, hop, Option.map_none]

theorem fetch_of_illegalOpcode {s : State} (hpc : s.pc.toNat + 4 ≤ 524288) (h : 30 * 2 ^ 27 ≤ (s.load4 s.pc).toNat) :
    fetch s = .fault (.illegalOpcode (s.load4 s.pc)) := by
  obtain ⟨-, j, hdecode, -⟩ | ⟨-, -, hfetch⟩ | ⟨hbad, -⟩ := fetch_cases s
  · exact nomatch hdecode.symm.trans (decodeWord_eq_none h)
  · exact hfetch
  · exact absurd hpc hbad

/-- Settles O11: the bounds are checked first, then the opcode; either fault is raised as it is found. -/
theorem fetchFaults : Obligations.FetchFaults := by
  unfold Obligations.FetchFaults
  intro s hs
  exact ⟨fun hpc => step_of_fetch_fault hs (fetch_of_pc_outOfBounds hpc),
    fun hpc hop => step_of_fetch_fault hs (fetch_of_illegalOpcode hpc hop)⟩

/-- Settles O13: the step tests the status before anything else; the halt writes the status alone. -/
theorem onlyRunningStatesStep : Obligations.OnlyRunningStatesStep := by
  unfold Obligations.OnlyRunningStatesStep
  intro s
  refine ⟨fun hs => by rw [step, hs], fun cause hs => by rw [step, hs], fun t h => (step_next s t h).1, ?halt⟩
  case halt =>
    intro t h
    rw [haltMachine_next s t h, State.setStatus_pc]

theorem decodeWord_of_decodeTableWord {w : Nat} {i : Instr} (h : decodeTableWord 32 w = some i) :
    decodeWord (BitVec.ofNat 32 (w % 2 ^ 32)) = some i := by
  have hbytes : decode (leBytes 4 (w % 2 ^ 32) ++ []) = .ok i := by
    rw [List.append_nil]
    unfold decodeTableWord at h
    split at h
    · next hok => rw [hok, Option.some.inj h]
    · cases h
    · cases h
  exact (decode_leBytes_append_eq_ok_iff _ [] i).mp hbytes

/-- Settles O59: the word placed at the pc is the word that the fetch reads there. -/
theorem placedWordRunsNext : Obligations.PlacedWordRunsNext := by
  unfold Obligations.PlacedWordRunsNext
  intro s w i hwf hs hpc hdecode
  have hword : (s.withFetchWord 32 w).load4 s.pc = BitVec.ofNat 32 (w % 2 ^ 32) := by
    rw [State.load4, State.withFetchWord, State.setMem_mem, Config.ilen, Memory.readNum_writeWord_same hwf,
      BitVec.ofNat_toNat, BitVec.setWidth_eq]
  exact step_of_decodeWord hs hpc (hword ▸ decodeWord_of_decodeTableWord hdecode)

/-- Settles O17: the codes are written in the table; that no fault has code 0 holds of every cause. -/
theorem exitCodeTellsSuccess : Obligations.ExitCodeTellsSuccess := by
  unfold Obligations.ExitCodeTellsSuccess
  refine ⟨rfl, ?zero, fun _ => rfl, fun _ => rfl, fun _ => rfl, rfl, rfl, fun _ => rfl, fun _ => rfl, fun _ => rfl⟩
  case zero =>
    intro st
    cases st with
    | running => simp [exitCode]
    | halted => simp [exitCode]
    | faulted cause => simp [exitCode, cause.code_ne_zero]

end Sys2Proof

/-! PROOF. What an instruction can do (R152, R161): ten forms of answer, found once by a case split over the
instructions. Every rule about the whole machine is read off the form. -/

namespace Sys2Proof

open Machine Claims

/-- The forms of an instruction's answer, each with what is known of an instruction that has it. -/
inductive Claims.Effect (i : Instr) (s : State) : Result → Prop where
  | write (a : Reg) (v : Word) (hdest : destination i = some a) : Effect i s (.next (s.setReg a v).advance)
  | jump (target : Word) : Effect i s (.next (s.setPc target))
  | store (addr v target : Word) (haddr : storeAddress i s = some addr) (hbounds : inBounds addr 8) :
      Effect i s (.next ((s.store8 addr v).setPc target))
  | switch (m : Mode) : Effect i s (.next (s.setMode m).advance)
  | output (a b : Reg) (hi : i = .privOutput a b ∨ i = .priv a b 4) (hgate : s.reg a ≠ 0) :
      Effect i s (.next (s.out (s.reg b)).advance)
  | read (a : Reg) (v : Word) (rest : List InItem) (hi : isInput i) (hdest : destination i = some a)
      (hitems : s.inStream.items = .value v :: rest) :
      Effect i s (.next ((s.setIn ⟨rest, s.inStream.ending⟩).setReg a v).advance)
  | halt : Effect i s (.next (s.setStatus .halted))
  | fault (cause : Cause) : Effect i s (.next (s.setStatus (.faulted cause)))
  | badItem (rest : List InItem) (hi : isInput i) (hitems : s.inStream.items = .malformed :: rest) :
      Effect i s (.next ((s.setIn ⟨rest, s.inStream.ending⟩).setStatus (.faulted (.ioError .malformed))))
  | wait (a b : Reg) (hi : i = .privInput a b ∨ i = .priv a b 3) (hgate : s.reg b = 0)
      (hin : s.inStream = ⟨[], .waiting⟩) : Effect i s (.fault .inputBlocked)

section Effect

variable {i : Instr} {s : State}

theorem Claims.Effect.of_eq {r r' : Result} (h : r' = r) (he : Effect i s r) : Effect i s r' := h ▸ he

theorem Claims.Effect.ite {c : Prop} [Decidable c] {x y : Result} (hx : Effect i s x) (hy : Effect i s y) :
    Effect i s (if c then x else y) := by
  split
  · exact hx
  · exact hy

theorem destination_of_input {a b : Reg} (hi : i = .privInput a b ∨ i = .priv a b 3) : destination i = some a := by
  obtain rfl | rfl := hi
  · rfl
  · rfl

theorem Machine.InStream.eq_waiting {x : InStream} (hitems : x.items = []) (hending : x.ending = .waiting) :
    x = ⟨[], .waiting⟩ := by
  cases x
  simp_all

theorem Claims.Effect.input (a b : Reg) (hi : i = .privInput a b ∨ i = .priv a b 3) : Effect i s (inputOp a b s) := by
  have hinput : isInput i := ⟨a, b, hi⟩
  obtain ⟨-, hop⟩ | ⟨-, v, rest, hitems, hop⟩ | ⟨-, rest, hitems, hop⟩ | ⟨-, -, -, hop⟩ |
    ⟨hgate, hitems, hending, hop⟩ := inputOp_cases a b s <;> rw [hop]
  · exact .jump _
  · exact .read a v rest hinput (destination_of_input hi) hitems
  · exact .badItem rest hinput hitems
  · exact .fault _
  · exact .wait a b hi hgate (InStream.eq_waiting hitems hending)

theorem Claims.Effect.outputOp (a b : Reg) (hi : i = .privOutput a b ∨ i = .priv a b 4) :
    Effect i s (Machine.outputOp a b s) := by
  obtain ⟨hgate, hop⟩ | ⟨-, hop⟩ := outputOp_cases a b s <;> rw [hop]
  · exact .output a b hi hgate
  · exact .jump _

end Effect

theorem call_effect (a : Reg) (s : State) : Effect (.call a) s (execCall a s) := by
  by_cases h : slotInBounds s.slot
  · exact .of_eq (execCall_of_inBounds a s h) (.store _ _ _ rfl h.2)
  · exact .of_eq (execCall_of_outOfBounds a s h) (.fault _)

theorem movSt_effect (a b : Reg) (lit : Lit) (s : State) : Effect (.movSt a b lit) s (execMovSt a b lit s) := by
  by_cases h : inBounds (dataAddress (s.reg a) lit) 8
  · exact .of_eq (execMovSt_of_inBounds a b lit s h) (.store _ _ _ rfl h)
  · exact .of_eq (execMovSt_of_outOfBounds a b lit s h) (.fault _)

theorem ret_effect (s : State) : Effect .ret s (execReturn s) := .ite (.jump _) (.fault _)

/-- The general `priv` row, by its literal (R140). -/
theorem priv_effect (a b : Reg) (lit : Lit) (s : State) : Effect (.priv a b lit) s (execPriv a b lit s) := by
  obtain rfl | rfl | rfl | rfl | rfl | hlit := lit.known_or_unknown
  · exact .halt
  · exact .switch _
  · exact .switch _
  · exact .input a b (.inr rfl)
  · exact .outputOp a b (.inr rfl)
  · exact .of_eq (execPriv_of_unknown a b lit s hlit) (.fault _)

/-- The instructions that end in one shared operation have its form, those with a test one form for each outcome. -/
theorem exec_effect (i : Instr) (s : State) : Effect i s (exec i s) := by
  cases i with
  | br | brr1 | brr2 => exact .jump _
  | brnz | brgt => exact .ite (.jump _) (.jump _)
  | call a => exact call_effect a s
  | ret => exact ret_effect s
  | movLd => exact .ite (.write _ _ rfl) (.fault _)
  | movSt a b lit => exact movSt_effect a b lit s
  | div | divf => exact .ite (.fault _) (.write _ _ rfl)
  | priv a b lit => exact priv_effect a b lit s
  | privHalt => exact .halt
  | privEnterSupervisor | privEnterUser => exact .switch _
  | privInput a b => exact .input a b (.inl rfl)
  | privOutput a b => exact .outputOp a b (.inl rfl)
  | _ => exact .write _ _ rfl

theorem effect_of_exec {i : Instr} {s t : State} (h : exec i s = .next t) : Effect i s (.next t) :=
  h ▸ exec_effect i s

end Sys2Proof

/-! PROOF. The rules about the whole machine, read off the forms: which register, which bytes and which streams change
(R13, R22, R23, R43), when there is a next state (R148), and what a fault keeps (R161). -/

namespace Sys2Proof

open Machine Claims

/-! ### Registers, memory and streams -/

/-- Settles O51: only two forms write a register, and each names it as the instruction's destination. -/
theorem onlyTheDestinationRegisterChanges : Obligations.OnlyTheDestinationRegisterChanges := by
  unfold Obligations.OnlyTheDestinationRegisterChanges
  intro i s t r h hne
  cases effect_of_exec h with
  | write a v hdest | read a v rest _ hdest =>
    obtain rfl : r = a := by
      by_contra hr
      exact hne (by simp [State.setReg_reg_other _ _ _ _ hr])
    exact hdest
  | _ => exact absurd rfl hne

/-- Memory is as it was, or was written at the eight bytes of the address that the instruction computes. -/
theorem exec_mem {i : Instr} {s t : State} (h : exec i s = .next t) :
    t.mem = s.mem ∨
    ∃ addr v, storeAddress i s = some addr ∧ inBounds addr 8 ∧ t.mem = s.mem.writeNum addr.toNat 8 v := by
  cases effect_of_exec h with
  | store addr v target haddr hbounds => exact .inr ⟨addr, v.toNat, haddr, hbounds, rfl⟩
  | _ => exact .inl rfl

theorem sameMemory_of_storeAddress_eq_none {i : Instr} {s t : State} (h : exec i s = .next t)
    (hnone : storeAddress i s = none) : SameMemory s t := by
  obtain hmem | ⟨addr, v, haddr, -⟩ := exec_mem h
  · exact fun a => by rw [hmem]
  · exact nomatch hnone.symm.trans haddr

theorem read_eq_of_outside_store {i : Instr} {s t : State} {addr : Word} (h : exec i s = .next t)
    (haddr : storeAddress i s = some addr) {a : Nat} (ha : a < addr.toNat ∨ addr.toNat + 8 ≤ a) :
    t.mem.read a = s.mem.read a := by
  obtain hmem | ⟨addr', v, haddr', -, hmem⟩ := exec_mem h
  · rw [hmem]
  · obtain rfl : addr' = addr := Option.some.inj (haddr'.symm.trans haddr)
    rw [hmem, Memory.read_writeNum_outside s.mem v ha]

/-- An instruction that faults unless a condition holds, and did not fault: the condition held. -/
theorem of_ite_raise_eq_next {c : Prop} [Decidable c] {s t u : State} {cause : Cause}
    (h : (if c then (.next u : Result) else raise cause s) = .next t) (ht : t.status = .running) : c ∧ t = u := by
  split at h
  · next hc => exact ⟨hc, (Host.Outcome.next.inj h).symm⟩
  · cases h
    cases ht

/-- A load that does not fault found its eight bytes inside memory (R36, R130). -/
theorem movLd_eq_next_running {a b : Reg} {lit : Lit} {s t : State} (h : exec (.movLd a b lit) s = .next t)
    (ht : t.status = .running) :
    inBounds (dataAddress (s.reg b) lit) 8 ∧ t = (s.setReg a (s.load8 (dataAddress (s.reg b) lit))).advance :=
  of_ite_raise_eq_next h ht

/-- Loads see memory alone, and a load leaves it as it was. -/
theorem movLd_repeatable {a b d e : Reg} {lit lit' : Lit} {s t : State} (h : exec (.movLd a b lit) s = .next t)
    (ht : t.status = .running) (haddr : dataAddress (t.reg e) lit' = dataAddress (s.reg b) lit) :
    ∃ u, exec (.movLd d e lit') t = .next u ∧ u.reg d = t.reg a ∧ SameMemory s u := by
  obtain ⟨hb, hloaded⟩ := movLd_eq_next_running h ht
  have hmem : t.mem = s.mem := by rw [hloaded]; rfl
  have hvalue : t.load8 (dataAddress (t.reg e) lit') = t.reg a := by
    rw [haddr, State.load8, hmem, hloaded, State.advance_reg, State.setReg_reg_same]
    rfl
  rw [← haddr] at hb
  refine ⟨_, execMovLd_of_inBounds d e lit' t hb, ?_, fun _ => by rw [State.advance_mem, State.setReg_mem, hmem]⟩
  rw [State.advance_reg, State.setReg_reg_same, hvalue]

/-- Settles O52: one form writes memory, at the address it names; a load has another form. -/
theorem onlyStoresChangeMemory : Obligations.OnlyStoresChangeMemory := by
  unfold Obligations.OnlyStoresChangeMemory
  exact ⟨fun _ _ _ h hnone => sameMemory_of_storeAddress_eq_none h hnone,
    fun _ _ _ _ h haddr _ ha => read_eq_of_outside_store h haddr ha,
    fun _ _ _ _ _ _ _ _ h ht haddr => movLd_repeatable h ht haddr⟩

/-- Settles O53: one form writes the output stream, that of an output whose gate is not zero. -/
theorem outputOnlyGrows : Obligations.OutputOnlyGrows := by
  unfold Obligations.OutputOnlyGrows
  intro i s t h
  cases effect_of_exec h with
  | output a b hi hgate => exact .inr ⟨a, b, hi, hgate, rfl⟩
  | _ => exact .inl rfl

theorem outputOp_setIn (a b : Reg) (s : State) (x : InStream) :
    outputOp a b (s.setIn x) = mapNext (fun t => t.setIn x) (outputOp a b s) :=
  ite_eq_mapNext_ite rfl rfl

theorem execPriv_setIn (a b : Reg) (lit : Lit) (s : State) (x : InStream) (hi : ¬ isInput (.priv a b lit)) :
    execPriv a b lit (s.setIn x) = mapNext (fun t => t.setIn x) (execPriv a b lit s) := by
  obtain rfl | rfl | rfl | rfl | rfl | hlit := lit.known_or_unknown
  · rfl
  · rfl
  · rfl
  · exact absurd ⟨a, b, .inr rfl⟩ hi
  · exact outputOp_setIn a b s x
  · rw [execPriv_of_unknown a b lit _ hlit, execPriv_of_unknown a b lit _ hlit]
    rfl

/-- An instruction that is no input commutes with replacing the input stream: no test and no value of it reads that. -/
theorem exec_setIn {i : Instr} (hi : ¬ isInput i) (s : State) (x : InStream) :
    exec i (s.setIn x) = mapNext (fun t => t.setIn x) (exec i s) := by
  cases i with
  | brnz | brgt | movLd | movSt | div | divf => exact ite_eq_mapNext_ite rfl rfl
  | call | ret => simp only [exec]; exact ite_eq_mapNext_ite rfl rfl
  | priv a b lit => exact execPriv_setIn a b lit s x hi
  | privInput a b => exact absurd ⟨a, b, .inl rfl⟩ hi
  | privOutput a b => exact outputOp_setIn a b s x
  | _ => rfl

theorem Machine.InStream.eq_cons {x : InStream} {item : InItem} {rest : List InItem} (h : x.items = item :: rest) :
    x = ⟨item :: rest, x.ending⟩ := by
  cases x
  simp_all

theorem exec_inStream {i : Instr} {s t : State} (h : exec i s = .next t) :
    t.inStream = s.inStream ∨ (isInput i ∧ ∃ item, s.inStream = ⟨item :: t.inStream.items, t.inStream.ending⟩) := by
  cases effect_of_exec h with
  | read a v rest hi _ hitems => exact .inr ⟨hi, .value v, InStream.eq_cons hitems⟩
  | badItem rest hi hitems => exact .inr ⟨hi, .malformed, InStream.eq_cons hitems⟩
  | _ => exact .inl rfl

/-- Settles O54: two forms consume an item, both of an input; that the others do not read the stream is `exec_setIn`. -/
theorem inputMattersOnlyToInput : Obligations.InputMattersOnlyToInput := by
  unfold Obligations.InputMattersOnlyToInput
  exact ⟨fun _ s x hi => exec_setIn hi s x, fun _ _ _ h => exec_inStream h⟩

/-! ### Progress, faults and the invariant -/

/-- An instruction has a next state, or is an input that waits. -/
theorem exec_moves_or_waits (i : Instr) (s : State) :
    (∃ t, exec i s = .next t) ∨
    (exec i s = .fault .inputBlocked ∧ s.inStream = ⟨[], .waiting⟩ ∧
      ∃ a b, (i = .privInput a b ∨ i = .priv a b 3) ∧ s.reg b = 0) := by
  have heffect := exec_effect i s
  generalize exec i s = r at heffect
  cases heffect with
  | wait a b hi hgate hin => exact .inr ⟨rfl, hin, a, b, hi, hgate⟩
  | _ => exact .inl ⟨_, rfl⟩

/-- Settles O15: a fault of the fetch is a next state; the one form without one is that of an input that waits, which
the fetch answers as the row of its own. -/
theorem runningMachineMovesOrWaitsForInput : Obligations.RunningMachineMovesOrWaitsForInput := by
  unfold Obligations.RunningMachineMovesOrWaitsForInput
  intro s hs
  cases hfetch : fetch s with
  | fault cause =>
    obtain ⟨t, hstep, -⟩ := step_of_fetch_fault hs hfetch
    exact .inl ⟨t, hstep⟩
  | instr i =>
    have hstep : step s = exec i s := by rw [step_running s hs, hfetch]
    rw [hstep]
    obtain hnext | ⟨hblocked, hin, a, b, rfl | rfl, hgate⟩ := exec_moves_or_waits i s
    · exact .inl hnext
    · exact .inr ⟨hblocked, hin, a, b, rfl, hgate⟩
    · exact absurd (fetch_wf hfetch) (by simp [Instr.wf, Lit.isUnknownPriv])

/-- Where an instruction stops a running machine: the status alone changes, but for a malformed item consumed. -/
theorem exec_stops {i : Instr} {s t : State} (hs : s.status = .running) (h : exec i s = .next t)
    (ht : t.status ≠ .running) :
    t = s.setStatus t.status ∨
    ∃ rest, s.inStream = ⟨.malformed :: rest, s.inStream.ending⟩ ∧
      t = (s.setIn ⟨rest, s.inStream.ending⟩).setStatus (.faulted (.ioError .malformed)) := by
  cases effect_of_exec h with
  | halt | fault => exact .inl rfl
  | badItem rest _ hitems => exact .inr ⟨rest, InStream.eq_cons hitems, rfl⟩
  | _ => exact absurd hs ht

theorem step_stops {s t : State} (h : step s = .next t) (ht : t.status ≠ .running) :
    t = s.setStatus t.status ∨
    ∃ rest, s.inStream = ⟨.malformed :: rest, s.inStream.ending⟩ ∧
      t = (s.setIn ⟨rest, s.inStream.ending⟩).setStatus (.faulted (.ioError .malformed)) := by
  obtain ⟨hs, ⟨i, -, hexec⟩ | ⟨cause, -, rfl⟩⟩ := step_next s t h
  · exact exec_stops hs hexec ht
  · exact .inl rfl

/-- Settles O16: a step that stops is one of two forms, and both are faults of `Faults`, one after the consumed item. -/
theorem faultsArePrecise : Obligations.FaultsArePrecise := by
  unfold Obligations.FaultsArePrecise
  intro s t cause h ht
  obtain hstop | ⟨rest, hin, rfl⟩ := step_stops h (by simp [ht])
  · rw [hstop, ht]
    exact .inl (setStatus_faults s cause)
  · obtain rfl : Cause.ioError .malformed = cause := Status.faulted.inj ht
    exact .inr ⟨rfl, rest, hin, setStatus_faults _ _⟩

/-- A step keeps the canonical form and the bounds: a fault of the fetch writes nothing, a store lies in bounds. -/
theorem step_mem {s t : State} (h : step s = .next t) (hwf : s.mem.wf = true) (hwithin : s.mem.within memSize = true) :
    t.mem.wf = true ∧ t.mem.within memSize = true := by
  obtain ⟨-, ⟨i, -, hexec⟩ | ⟨cause, -, rfl⟩⟩ := step_next s t h
  · obtain hmem | ⟨addr, v, -, hbounds, hmem⟩ := exec_mem hexec <;> rw [hmem]
    · exact ⟨hwf, hwithin⟩
    · exact ⟨Memory.writeNum_wf _ _ _ _ hwf, Memory.writeNum_within _ _ _ _ _ hbounds hwithin⟩
  · exact ⟨hwf, hwithin⟩

/-- Put back to running, with a consumed item in front again, the stopped state is the state that the step came from. -/
theorem step_stopWitnessed {s t : State} (h : step s = .next t) : StopWitnessed t := by
  intro ht
  obtain ⟨hs, -⟩ := step_next s t h
  obtain hstop | ⟨rest, hin, rfl⟩ := step_stops h ht
  · refine ⟨t.inStream, .inl rfl, ?_⟩
    have hback : (t.setStatus .running).setIn t.inStream = s := by rw [hstop, ← hs]; rfl
    rw [hback, h]
  · refine ⟨⟨.malformed :: rest, s.inStream.ending⟩, .inr rfl, ?_⟩
    rw [← h, ← hin, ← hs]
    rfl

/-- Settles O56: the memory clauses by what a step writes, the stop by undoing it. -/
theorem stepKeepsTheInvariant : Obligations.StepKeepsTheInvariant := by
  unfold Obligations.StepKeepsTheInvariant
  intro s t hinv h
  obtain ⟨hwf, hwithin⟩ := step_mem h hinv.canonical hinv.within
  exact ⟨hwf, hwithin, step_stopWitnessed h⟩

end Sys2Proof

/-! PROOF. Shifts and integer arithmetic (R80 to R85, R110 to R116): each writes one register, so each claim is left
with the number that the written bit vector stands for. -/

namespace Sys2Proof

open Machine Claims

/-! ### Shifts -/

/-- A logical right shift divides; from 64 on the quotient of a 64-bit number is 0 (D12, D13). -/
theorem shr_toNat (v : Word) (n : Nat) : (shr v n).toNat = v.toNat / 2 ^ n := by
  unfold shr
  split
  · rw [BitVec.toNat_ushiftRight, Nat.shiftRight_eq_div_pow]
  · next hn =>
    have hv : v.toNat < 2 ^ n := Nat.lt_of_lt_of_le v.isLt (Nat.pow_le_pow_right (by omega) (by omega))
    exact (Nat.div_eq_of_lt hv).symm

/-- A left shift multiplies modulo 2^64; from 64 on the product is a multiple of 2^64 (D13). -/
theorem shl_toNat (v : Word) (n : Nat) : (shl v n).toNat = v.toNat * 2 ^ n % 2 ^ 64 := by
  unfold shl
  split
  · rw [BitVec.toNat_shiftLeft, Nat.shiftLeft_eq]
  · next hn =>
    have hdvd : 2 ^ 64 ∣ v.toNat * 2 ^ n := Dvd.dvd.mul_left (Nat.pow_dvd_pow 2 (by omega)) _
    exact (Nat.mod_eq_zero_of_dvd hdvd).symm

/-- Settles O19: `shr` and `shl` are division and multiplication by a power of two, the literal forms in place. -/
theorem shiftResults : Obligations.ShiftResults := by
  unfold Obligations.ShiftResults
  intro a b c lit s
  refine ⟨?shftr, ?shftri, ?shftl, ?shftli⟩
  case shftr => exact (writes_of_exec_eq_writeBack rfl).exists_result (shr_toNat _ _)
  case shftri => exact (writes_of_exec_eq_writeBack rfl).exists_result (shr_toNat _ _)
  case shftl => exact (writes_of_exec_eq_writeBack rfl).exists_result (shl_toNat _ _)
  case shftli => exact (writes_of_exec_eq_writeBack rfl).exists_result (shl_toNat _ _)

/-! ### Sums, differences and products -/

/-- The literal read as an unsigned number is itself (R53). -/
@[simp] theorem zext12_toNat (lit : Lit) : (zext12 lit).toNat = lit.toNat := by
  have hlit := lit.isLt
  rw [zext12, BitVec.toNat_setWidth, Nat.mod_eq_of_lt (by omega)]

/-- A difference of words, as the difference of the numbers modulo 2^64. -/
theorem sub_toNat_eq_emod (x y : Word) : ((x - y).toNat : Int) = (x.toNat - y.toNat : Int) % 2 ^ 64 := by
  have hx := x.isLt
  have hy := y.isLt
  rw [BitVec.toNat_sub]
  omega

/-- Settles O26: the bit vector operations are the integer ones modulo 2^64, unsigned and signed. -/
theorem integerResultsWrap : Obligations.IntegerResultsWrap := by
  unfold Obligations.IntegerResultsWrap
  intro a b c lit s
  refine ⟨?add, ?addi, ?sub, ?subi, ?mul⟩
  case add => exact (writes_of_exec_eq_writeBack rfl).exists_result ⟨BitVec.toNat_add _ _, BitVec.toInt_add _ _⟩
  case addi => exact (writes_of_exec_eq_writeBack rfl).exists_result (by rw [BitVec.toNat_add, zext12_toNat])
  case sub => exact (writes_of_exec_eq_writeBack rfl).exists_result ⟨sub_toNat_eq_emod _ _, BitVec.toInt_sub⟩
  case subi => exact (writes_of_exec_eq_writeBack rfl).exists_result (by rw [sub_toNat_eq_emod, zext12_toNat])
  case mul => exact (writes_of_exec_eq_writeBack rfl).exists_result ⟨BitVec.toNat_mul _ _, BitVec.toInt_mul _ _⟩

/-! ### Division -/

/-- The quotient of the model is the signed division of bit vectors. -/
theorem signedQuotient_eq_sdiv (x y : Word) : signedQuotient x y = x.sdiv y := by
  apply BitVec.eq_of_toInt_eq
  rw [signedQuotient, BitVec.toInt_ofInt, BitVec.toInt_sdiv]

/-- But for the one quotient that overflows, the quotient rounded toward zero fits (D17). -/
theorem signedQuotient_toInt {x y : Word} (h : ¬ (x.toInt = -2 ^ 63 ∧ y.toInt = -1)) :
    (signedQuotient x y).toInt = x.toInt.tdiv y.toInt := by
  rw [signedQuotient_eq_sdiv]
  apply BitVec.toInt_sdiv_of_ne_or_ne
  rw [← not_and_or]
  exact fun ⟨hx, hy⟩ => h ⟨by rw [hx]; decide, by rw [hy]; decide⟩

theorem signedQuotient_of_overflow {x y : Word} (hx : x.toInt = -2 ^ 63) (hy : y.toInt = -1) :
    signedQuotient x y = 0x8000000000000000 := by
  rw [signedQuotient, hx, hy]
  decide

/-- A quotient rounded toward zero is negative only where the signs differ. -/
theorem mul_neg_of_tdiv_neg {x y : Int} (h : x.tdiv y < 0) : x * y < 0 := by
  have hsign := Int.sign_tdiv x y
  rw [Int.sign_eq_neg_one_of_neg h, ← Int.sign_mul] at hsign
  split at hsign
  · cases hsign
  · exact Int.sign_eq_neg_one_iff_neg.mp hsign.symm

/-- A quotient rounded toward zero is positive only where the signs agree. -/
theorem mul_pos_of_tdiv_pos {x y : Int} (h : 0 < x.tdiv y) : 0 < x * y := by
  have hsign := Int.sign_tdiv x y
  rw [Int.sign_eq_one_of_pos h, ← Int.sign_mul] at hsign
  split at hsign
  · cases hsign
  · exact Int.sign_eq_one_iff_pos.mp hsign.symm

/-- Settles O27: the quotient of the signed readings, by the sign and magnitude of the quotient rounded toward zero. -/
theorem divisionTruncatesAndFaultsOnZero : Obligations.DivisionTruncatesAndFaultsOnZero := by
  unfold Obligations.DivisionTruncatesAndFaultsOnZero
  intro a b c s
  refine ⟨?quotient, ?wraps, ?faults⟩
  case quotient =>
    intro hc hfits
    have hne : s.reg c ≠ 0 := fun hzero => hc (congrArg BitVec.toNat hzero)
    refine (div_writes a b hne).exists_result ?_
    rw [signedQuotient_toInt hfits]
    refine ⟨Int.natAbs_tdiv _ _, fun hneg => ?_, fun hpos => ?_⟩
    · obtain hsigns | hsigns := mul_neg_iff.mp (mul_neg_of_tdiv_neg hneg) <;> omega
    · obtain hsigns | hsigns := mul_pos_iff.mp (mul_pos_of_tdiv_pos hpos) <;> omega
  case wraps =>
    intro hb hc
    have hne : s.reg c ≠ 0 := fun hzero => by rw [hzero] at hc; cases hc
    have hwrites := div_writes a b hne
    rwa [signedQuotient_of_overflow hb hc] at hwrites
  case faults =>
    intro hc
    exact ⟨_, execDiv_of_eq a b c s (BitVec.eq_of_toNat_eq hc), setStatus_faults s _⟩

end Sys2Proof

/-! PROOF. Control transfers (R90 to R105): where the pc goes, what the slot holds, and the round trip of call and
return. -/

namespace Sys2Proof

open Machine Claims

/-! ### Branches -/

/-- A displacement is the literal less 4096 where its bit 11 is set (R53). -/
theorem sext12_toInt (lit : Lit) :
    (sext12 lit).toInt = if lit.toNat < 2048 then (lit.toNat : Int) else (lit.toNat : Int) - 4096 := by
  rw [sext12, BitVec.toInt_signExtend_of_le (by omega), BitVec.toInt_eq_toNat_cond]
  exact if_congr (by omega) rfl rfl

/-- A base plus a displacement, modulo 2^64 (R92, R130). -/
theorem add_sext12_toNat (x : Word) (lit : Lit) : ((x + sext12 lit).toNat : Int) =
    (x.toNat + (if lit.toNat < 2048 then (lit.toNat : Int) else (lit.toNat : Int) - 4096)) % 2 ^ 64 := by
  have hsigned := BitVec.toInt_eq_toNat_cond (sext12 lit)
  rw [sext12_toInt] at hsigned
  rw [BitVec.toNat_add]
  split at hsigned <;> split at hsigned <;> omega

theorem jumps_of_exec_eq {i : Instr} {s : State} {target : Word} (h : exec i s = .next (s.setPc target)) :
    ∃ t, exec i s = .next t ∧ Jumps s t target :=
  ⟨_, h, setPc_jumps s target⟩

/-- Settles O20: the three replace the pc, and the sums are those of the program counter's 64 bits. -/
theorem unconditionalBranches : Obligations.UnconditionalBranches := by
  unfold Obligations.UnconditionalBranches
  intro a lit s
  exact ⟨jumps_of_exec_eq rfl, ⟨_, _, rfl, setPc_jumps s _, BitVec.toNat_add _ _⟩,
    ⟨_, _, rfl, setPc_jumps s _, add_sext12_toNat _ _⟩⟩

theorem toNat_eq_zero_iff (v : Word) : v.toNat = 0 ↔ v = 0 := by
  simp only [BitVec.toNat_eq, BitVec.reduceToNat]

theorem toNat_ne_zero_iff (v : Word) : v.toNat ≠ 0 ↔ v ≠ 0 := by
  rw [ne_eq, ne_eq, toNat_eq_zero_iff]

/-- Settles O21: each branch by the outcome of its test. -/
theorem conditionalBranches : Obligations.ConditionalBranches := by
  unfold Obligations.ConditionalBranches
  intro a b c s
  simp only [toNat_ne_zero_iff, toNat_eq_zero_iff]
  exact ⟨fun h => jumps_of_exec_eq (execBrnz_of_ne a b s h), fun h => jumps_of_exec_eq (execBrnz_of_eq a b s h),
    fun h => jumps_of_exec_eq (execBrgt_of_lt a b c s h), fun h => jumps_of_exec_eq (execBrgt_of_le a b c s h)⟩

/-! ### Call and return -/

/-- The slot lies eight bytes below the address in register 31 (R102; D10). -/
theorem slot_eq (s : State) : s.slot = s.reg 31 - 8 := by
  rw [BitVec.sub_eq_add_neg]
  rfl

/-- What a store of eight bytes and a new pc do to a state with canonical memory. -/
theorem store8_setPc_stores {s : State} (h : s.mem.wf = true) (addr v target : Word) :
    Stores s ((s.store8 addr v).setPc target) addr v target where
  stored := by
    intro k hk
    rw [State.setPc_mem, State.store8_read s addr v _ h, if_pos (by omega), Nat.add_sub_cancel_left]
    apply BitVec.eq_of_toNat_eq
    rw [BitVec.extractLsb'_toNat, Nat.shiftRight_eq_div_pow, BitVec.toNat_ofNat, show 256 = 2 ^ 8 from rfl,
      ← Nat.pow_mul]
  outside := fun a ha => by rw [State.setPc_mem, State.store8_read s addr v a h, if_neg (by omega)]
  pc := rfl
  regs := fun _ => rfl
  control := ⟨rfl, rfl, rfl, rfl⟩

/-- Settles O23: in bounds `call` is a store and a jump, `return` a load and a jump. -/
theorem callAndReturnComplete : Obligations.CallAndReturnComplete := by
  unfold Obligations.CallAndReturnComplete
  intro a s
  refine ⟨slot_eq s, fun hlow hhigh hwf => ⟨?call, ?ret⟩⟩
  case call => exact ⟨_, execCall_of_inBounds a s ⟨hlow, hhigh⟩, store8_setPc_stores hwf _ _ _⟩
  case ret =>
    exact ⟨_, _, execReturn_of_inBounds s ⟨hlow, hhigh⟩, setPc_jumps s _, fun k hk => State.load8_byte s s.slot k hk⟩

/-- Settles O24: either side out of bounds fails the one test that both instructions make. -/
theorem slotOutOfBoundsFaults : Obligations.SlotOutOfBoundsFaults := by
  unfold Obligations.SlotOutOfBoundsFaults
  intro a s hslot
  have hbad : ¬ slotInBounds s.slot := by
    rintro ⟨hlow, hhigh⟩
    simp only [inBounds, Config.dlen, loadBase, memSize] at hlow hhigh
    omega
  rw [← slot_eq]
  exact ⟨⟨_, execCall_of_outOfBounds a s hbad, setStatus_faults s _⟩,
    ⟨_, execReturn_of_outOfBounds s hbad, setStatus_faults s _⟩⟩

/-- A `call` that does not fault found its slot in bounds. -/
theorem call_eq_next_running {a : Reg} {s t : State} (h : exec (.call a) s = .next t) (ht : t.status = .running) :
    slotInBounds s.slot ∧ t = (s.store8 s.slot s.nextPc).setPc (s.reg a) := by
  have hcall : execCall a s = .next t := h
  exact of_ite_raise_eq_next hcall ht

/-- A `return` that does not fault found its slot in bounds. -/
theorem ret_eq_next_running {s t : State} (h : exec .ret s = .next t) (ht : t.status = .running) :
    slotInBounds s.slot ∧ t = s.setPc (s.load8 s.slot) := by
  have hret : execReturn s = .next t := h
  exact of_ite_raise_eq_next hret ht

/-- Settles O25: the slot is where it was, since register 31 is, and holds the address of the next instruction. -/
theorem callThenReturnComesBack : Obligations.CallThenReturnComesBack := by
  unfold Obligations.CallThenReturnComesBack
  intro a s t hwf h ht
  obtain ⟨hb, rfl⟩ := call_eq_next_running h ht
  have hreturn : ((s.store8 s.slot s.nextPc).setPc (s.reg a)).load8 s.slot = s.nextPc :=
    State.store8_load8 hwf s.slot s.nextPc
  refine ⟨_, execReturn_of_inBounds _ hb, ?_⟩
  rw [State.setPc_slot, State.store8_slot, hreturn]
  exact store8_setPc_stores hwf s.slot s.nextPc s.nextPc

/-! ### The pc after a transfer -/

/-- A transfer that completes while running: to its target when taken, else to the next instruction (R95). -/
theorem transfer_pc {i : Instr} {s t : State} {target : Word} (htarget : transferTarget i s = some target)
    (h : exec i s = .next t) (ht : t.status = .running) :
    (isTaken i s → t.pc = target) ∧ (¬ isTaken i s → t.pc = s.pc + 4) := by
  cases i with
  | br | brr1 | brr2 =>
    cases htarget
    cases h
    exact ⟨fun _ => rfl, fun hnot => absurd trivial hnot⟩
  | brnz a b =>
    cases htarget
    refine ⟨fun hb => ?_, fun hb => ?_⟩
    · rw [← Host.Outcome.next.inj ((execBrnz_of_ne a b s hb).symm.trans h), State.setPc_pc]
    · rw [← Host.Outcome.next.inj ((execBrnz_of_eq a b s (not_not.mp hb)).symm.trans h), State.advance_pc,
        State.nextPc_eq]
  | brgt a b c =>
    cases htarget
    refine ⟨fun hlt => ?_, fun hle => ?_⟩
    · rw [← Host.Outcome.next.inj ((execBrgt_of_lt a b c s hlt).symm.trans h), State.setPc_pc]
    · rw [← Host.Outcome.next.inj ((execBrgt_of_le a b c s (Int.not_lt.mp hle)).symm.trans h), State.advance_pc,
        State.nextPc_eq]
  | call a =>
    obtain ⟨-, hcalled⟩ := call_eq_next_running h ht
    rw [hcalled, State.setPc_pc]
    exact ⟨fun _ => Option.some.inj htarget, fun hnot => absurd trivial hnot⟩
  | ret =>
    obtain ⟨-, hreturned⟩ := ret_eq_next_running h ht
    rw [hreturned, State.setPc_pc]
    exact ⟨fun _ => Option.some.inj htarget, fun hnot => absurd trivial hnot⟩
  | _ => cases htarget

/-- Settles O22: a transfer checks no target, and the next fetch raises the fault of a pc out of bounds. -/
theorem transfersAreCheckedByTheNextFetch : Obligations.TransfersAreCheckedByTheNextFetch := by
  unfold Obligations.TransfersAreCheckedByTheNextFetch
  intro i s t target htarget h ht
  obtain ⟨htaken, hnot⟩ := transfer_pc htarget h ht
  exact ⟨htaken, hnot, fun hpc => step_of_fetch_fault ht (fetch_of_pc_outOfBounds hpc)⟩

end Sys2Proof

/-! PROOF. Data movement (R34, R130 to R135): loads and stores in and out of bounds, and what reads that overlap a store
see of it. -/

namespace Sys2Proof

open Machine Claims

/-- Settles O39: in bounds the load writes the eight bytes that `load8` reads, the store puts them where it computes. -/
theorem loadAndStoreComplete : Obligations.LoadAndStoreComplete := by
  unfold Obligations.LoadAndStoreComplete
  refine ⟨fun base lit => add_sext12_toNat base lit, fun a b lit s => ⟨fun hb => ?load, fun hb hwf => ?store⟩⟩
  case load =>
    exact ⟨_, _, execMovLd_of_inBounds a b lit s hb, setReg_advance_writesRegister s a _,
      fun k hk => State.load8_byte s _ k hk⟩
  case store => exact ⟨_, execMovSt_of_inBounds a b lit s hb, store8_setPc_stores hwf _ _ _⟩

/-- Settles O40: the fault records the address that the instruction computed. -/
theorem dataOutOfBoundsFaults : Obligations.DataOutOfBoundsFaults := by
  unfold Obligations.DataOutOfBoundsFaults
  intro a b lit s
  exact ⟨fun hb => ⟨_, execMovLd_of_outOfBounds a b lit s (Nat.not_le.mpr hb), setStatus_faults s _⟩,
    fun hb => ⟨_, execMovSt_of_outOfBounds a b lit s (Nat.not_le.mpr hb), setStatus_faults s _⟩⟩

/-- Settles O41: a copy, and the literal put before the low 52 bits. -/
theorem registerMoves : Obligations.RegisterMoves := by
  unfold Obligations.RegisterMoves
  intro a b lit s
  refine ⟨writes_of_exec_eq_writeBack rfl, (writes_of_exec_eq_writeBack rfl).exists_result ?_⟩
  rw [replaceHigh, append_toNat_eq_mul_add, BitVec.toNat_setWidth]

/-- A store that does not fault found its eight bytes inside memory (R36, R133). -/
theorem movSt_eq_next_running {a b : Reg} {lit : Lit} {s t : State} (h : exec (.movSt a b lit) s = .next t)
    (ht : t.status = .running) :
    inBounds (dataAddress (s.reg a) lit) 8 ∧ t = (s.store8 (dataAddress (s.reg a) lit) (s.reg b)).advance :=
  of_ite_raise_eq_next h ht

/-- Settles O42: the second address is in bounds because the first was, and eight bytes stored are read back. -/
theorem storeThenLoadGivesTheValue : Obligations.StoreThenLoadGivesTheValue := by
  unfold Obligations.StoreThenLoadGivesTheValue
  intro a b d e lit lit' s t hwf h ht haddr
  obtain ⟨hb, rfl⟩ := movSt_eq_next_running h ht
  generalize dataAddress (s.reg a) lit = addr at hb haddr ⊢
  have hbase : dataAddress ((s.store8 addr (s.reg b)).advance.reg e) lit' = addr := haddr
  refine ⟨_, execMovLd_of_inBounds d e lit' _ (hbase.symm ▸ hb), ?_⟩
  rw [State.advance_reg, State.setReg_reg_same, hbase]
  exact State.store8_load8 hwf addr (s.reg b)

/-! ### Reads that overlap a store -/

/-- Byte `k` of a number read from memory (R34). -/
theorem Machine.Memory.readNum_byte (m : Memory) (addr : Nat) {n k : Nat} (hk : k < n) :
    BitVec.ofNat 8 (m.readNum addr n / 256 ^ k) = m.read (addr + k) := by
  have hbytes : leBytes n (m.readNum addr n) = m.readBytes addr n := by
    have h := leBytes_leValue (m.readBytes addr n)
    rwa [Memory.readBytes_length] at h
  rw [← Memory.readBytes_getElem m addr n k (by rwa [Memory.readBytes_length]),
    ← leBytes_getElem n _ k (by rwa [leBytes_length])]
  simp only [hbytes]

/-- A byte of the word that a fetch reads is the byte of memory (R34, R50). -/
theorem Machine.State.load4_byte (s : State) (addr : Word) {k : Nat} (hk : k < 4) :
    (s.load4 addr).extractLsb' (8 * k) 8 = s.mem.read (addr.toNat + k) := by
  have hlt := Memory.readNum_lt s.mem addr.toNat 4
  rw [← Memory.readNum_byte s.mem addr.toNat hk, State.load4, Config.ilen]
  apply BitVec.eq_of_toNat_eq
  rw [BitVec.extractLsb'_toNat, Nat.shiftRight_eq_div_pow, BitVec.toNat_ofNat, BitVec.toNat_ofNat,
    Nat.mod_eq_of_lt (a := s.mem.readNum _ _) (Nat.lt_of_lt_of_eq hlt (by decide)), show 256 = 2 ^ 8 from rfl,
    ← Nat.pow_mul]

/-- Words are equal when their four bytes are. -/
theorem iword_eq_of_bytes {w v : IWord} (h : ∀ k, k < 4 → w.extractLsb' (8 * k) 8 = v.extractLsb' (8 * k) 8) :
    w = v := by
  apply BitVec.eq_of_getLsbD_eq
  intro j hj
  have hbyte := congrArg (fun b : Byte => b.getLsbD (j % 8)) (h (j / 8) (by omega))
  simpa [BitVec.getLsbD_extractLsb', Nat.mod_lt, Nat.div_add_mod] using hbyte

/-- A byte that a store wrote (R34). -/
theorem Machine.State.store8_read_inside {s : State} (h : s.mem.wf = true) (addr v : Word) {k : Nat} (hk : k < 8) :
    (s.store8 addr v).mem.read (addr.toNat + k) = v.extractLsb' (8 * k) 8 :=
  (store8_setPc_stores h addr v 0).stored k hk

theorem Machine.State.store8_read_outside {s : State} (h : s.mem.wf = true) (addr v : Word) {a : Nat}
    (ha : a < addr.toNat ∨ addr.toNat + 8 ≤ a) : (s.store8 addr v).mem.read a = s.mem.read a :=
  (store8_setPc_stores h addr v 0).outside a ha

/-- A small offset from an address with eight bytes of memory does not wrap around. -/
theorem toNat_add_ofNat {addr : Word} (h : addr.toNat + 8 ≤ 524288) {k : Nat} (hk : k < 8) :
    (addr + BitVec.ofNat 64 k).toNat = addr.toNat + k := by
  rw [BitVec.toNat_add, BitVec.toNat_ofNat]
  omega

/-- The word that lies `k` bytes inside the eight bytes stored. -/
theorem Machine.State.store8_load4 {s : State} (h : s.mem.wf = true) {addr : Word} (v : Word)
    (hb : addr.toNat + 8 ≤ 524288) {k : Nat} (hk : k ≤ 4) :
    (s.store8 addr v).load4 (addr + BitVec.ofNat 64 k) = v.extractLsb' (8 * k) 32 := by
  apply iword_eq_of_bytes
  intro j hj
  rw [State.load4_byte _ _ hj, toNat_add_ofNat hb (by omega), Nat.add_assoc,
    State.store8_read_inside h addr v (by omega)]
  ext m hm
  simp [BitVec.getElem_extractLsb', show 8 * j + m < 32 by omega, Nat.mul_add, Nat.add_assoc]

/-- Settles O43: byte by byte, a byte inside the store is the value's and one after it is the old one. -/
theorem readsAfterAStoreSeeItsBytes : Obligations.ReadsAfterAStoreSeeItsBytes := by
  unfold Obligations.ReadsAfterAStoreSeeItsBytes
  intro s addr v hwf hb
  refine ⟨?low, State.store8_load4 hwf v hb (k := 4) (by omega), State.store8_load8 hwf addr v, ?overlap⟩
  case low =>
    have h := State.store8_load4 hwf v hb (k := 0) (by omega)
    rwa [show addr + BitVec.ofNat 64 0 = addr from BitVec.add_zero addr] at h
  case overlap =>
    intro k hpos hk j hj
    rw [State.load8_byte _ _ j hj, toNat_add_ofNat hb hk]
    split
    · next hin => rw [← State.store8_read_inside hwf addr v hin]; congr 1; omega
    · next hout => exact State.store8_read_outside hwf addr v (by omega)

end Sys2Proof

/-! PROOF. The `priv` operations (R140 to R148), by what the shared operations do. -/

namespace Sys2Proof

open Machine Claims

/-- Settles O44: each switch writes its mode and advances. -/
theorem modeSwitches : Obligations.ModeSwitches := by
  unfold Obligations.ModeSwitches
  exact fun s => ⟨⟨_, rfl, rfl, setPc_jumps (s.setMode .supervisor) _⟩, ⟨_, rfl, rfl, setPc_jumps (s.setMode .user) _⟩⟩

/-- Settles O50: on its known literals the general row is the case analysis that the five rows are named after. -/
theorem privLiteralSelects : Obligations.PrivLiteralSelects := by
  unfold Obligations.PrivLiteralSelects
  exact fun _ _ _ => ⟨rfl, rfl, rfl, rfl, rfl⟩

/-! The input with its gate zero, by what stands at the front of the stream (R144, R148). -/

section Input

variable {s : State} {rest : List InItem}

theorem privInput_of_value {a b : Reg} {v : Word} (hgate : s.reg b = 0)
    (hitems : s.inStream.items = .value v :: rest) :
    exec (.privInput a b) s = .next ((s.setIn ⟨rest, s.inStream.ending⟩).setReg a v).advance := by
  simp [exec, execPrivInput, inputOp, hgate, InStream.take, hitems, writeBack]

theorem privInput_of_malformed {a b : Reg} (hgate : s.reg b = 0) (hitems : s.inStream.items = .malformed :: rest) :
    exec (.privInput a b) s =
      .next ((s.setIn ⟨rest, s.inStream.ending⟩).setStatus (.faulted (.ioError .malformed))) := by
  simp [exec, execPrivInput, inputOp, hgate, InStream.take, hitems, raise]

theorem privInput_of_closed {a b : Reg} (hgate : s.reg b = 0) (hitems : s.inStream.items = [])
    (hending : s.inStream.ending = .closed) :
    exec (.privInput a b) s = .next (s.setStatus (.faulted (.ioError .closed))) := by
  simp [exec, execPrivInput, inputOp, hgate, InStream.take, hitems, hending, raise]

theorem privInput_of_waiting {a b : Reg} (hgate : s.reg b = 0) (hitems : s.inStream.items = [])
    (hending : s.inStream.ending = .waiting) : exec (.privInput a b) s = .fault .inputBlocked := by
  simp [exec, execPrivInput, inputOp, hgate, InStream.take, hitems, hending]

end Input

/-- Settles O46: a gate that is zero leaves four cases, one for each thing that the front of the stream can be. -/
theorem gatedInput : Obligations.GatedInput := by
  unfold Obligations.GatedInput
  intro a b s
  simp only [toNat_ne_zero_iff, toNat_eq_zero_iff]
  refine ⟨fun hgate => ⟨?value, ?malformed, ?closed, ?waiting⟩, fun hgate => ?off⟩
  case value =>
    intro v rest hitems
    exact ⟨_, privInput_of_value hgate hitems, setReg_advance_writesRegister _ a v⟩
  case malformed =>
    intro rest hitems
    exact ⟨_, privInput_of_malformed hgate hitems, setStatus_faults _ _⟩
  case closed =>
    intro hitems hending
    exact ⟨_, privInput_of_closed hgate hitems hending, setStatus_faults s _⟩
  case waiting =>
    intro hitems hending
    refine ⟨privInput_of_waiting hgate hitems hending, fun v => ?_⟩
    have hsupplied : s.inStream.supply (.value v) = ⟨[.value v], .waiting⟩ := by
      rw [InStream.eq_waiting hitems hending]
      rfl
    have hread : exec (.privInput a b) (s.setIn ⟨[.value v], .waiting⟩) =
        .next (((s.setIn ⟨[.value v], .waiting⟩).setIn ⟨[], .waiting⟩).setReg a v).advance :=
      privInput_of_value (s := s.setIn ⟨[.value v], .waiting⟩) hgate rfl
    have hback : (s.setIn ⟨[.value v], .waiting⟩).setIn ⟨[], .waiting⟩ = s := by
      rw [← InStream.eq_waiting hitems hending]
      rfl
    rw [hback] at hread
    rw [hsupplied]
    exact ⟨_, hread, setReg_advance_writesRegister s a v⟩
  case off => exact jumps_of_exec_eq (privInput_of_ne a b hgate)

/-- Settles O48: an open output appends and advances, a closed one advances. -/
theorem gatedOutput : Obligations.GatedOutput := by
  unfold Obligations.GatedOutput
  intro a b s
  simp only [toNat_ne_zero_iff, toNat_eq_zero_iff]
  obtain ⟨hgate, hop⟩ | ⟨hgate, hop⟩ := outputOp_cases a b s
  · refine ⟨fun _ => ?_, fun hoff => absurd hoff hgate⟩
    exact ⟨_, hop, rfl, rfl, rfl, fun _ => rfl, fun _ => rfl, rfl, rfl⟩
  · exact ⟨fun hon => absurd hgate hon, fun _ => jumps_of_exec_eq hop⟩

end Sys2Proof

/-! PROOF. The text of the output (R23): the numeral of a number is that of its tenth followed by its last digit. -/

namespace Sys2Proof

open Machine Claims

/-- The character of a digit. -/
theorem digitChar_eq_ofNat {d : Nat} (h : d < 10) : d.digitChar = Char.ofNat ('0'.toNat + d) := by
  interval_cases d <;> rfl

theorem isNumeral_digit {d : Nat} (h : d < 10) : IsNumeral (String.ofList [d.digitChar]) d := by
  refine ⟨[d], ?_, by simpa using h, by simp, by simp, by simp⟩
  rw [List.map_singleton, digitChar_eq_ofNat h]

/-- A digit after the numeral of a number that is not zero. -/
theorem isNumeral_append_digit {text : String} {n d : Nat} (hn : 0 < n) (hd : d < 10) (h : IsNumeral text n) :
    IsNumeral (text ++ String.ofList [d.digitChar]) (10 * n + d) := by
  obtain ⟨digits, rfl, hlt, hne, hhead, hvalue⟩ := h
  refine ⟨digits ++ [d], ?text, ?lt, by simp, ?head, by simp [hvalue]⟩
  case text => rw [List.map_append, List.map_singleton, String.ofList_append, digitChar_eq_ofNat hd]
  case lt =>
    intro e he
    obtain he | he := List.mem_append.mp he
    · exact hlt e he
    · rwa [List.mem_singleton.mp he]
  case head =>
    intro hzero
    rw [List.head?_append_of_ne_nil _ hne] at hzero
    rw [hhead hzero] at hvalue
    simp at hvalue
    omega

theorem repr_isNumeral (n : Nat) : IsNumeral (Nat.repr n) n := by
  rw [Nat.repr_eq_ofList_toDigits]
  induction n using Nat.strongRecOn with
  | ind n ih =>
    by_cases hn : n < 10
    · rw [Nat.toDigits_of_lt_base hn]
      exact isNumeral_digit hn
    · have htenth := isNumeral_append_digit (d := n % 10) (by omega) (by omega) (ih (n / 10) (by omega))
      rw [Nat.toDigits_of_base_le (by omega) (by omega), String.ofList_append]
      rwa [Nat.div_add_mod] at htenth

theorem outText_append (vs ws : List Word) : outText (vs ++ ws) = outText vs ++ outText ws := by
  rw [outText, List.map_append, String.join_append, outText, outText]

theorem outText_singleton (v : Word) : outText [v] = Nat.repr v.toNat := by
  rw [outText, List.map_singleton, String.join_cons, String.join_nil, String.append_empty]

/-- Settles O55: a single value is its numeral, and texts are joined without separators. -/
theorem outputTextConcatenates : Obligations.OutputTextConcatenates := by
  unfold Obligations.OutputTextConcatenates
  exact ⟨by decide, by decide, by decide, fun v => outText_singleton v ▸ repr_isNumeral v.toNat, outText_append⟩

end Sys2Proof

/-! PROOF. Rounding (R120): the magnitudes of the patterns rise strictly, a quotient lies between those of two
neighbouring patterns, and the rounding picks the nearer of the two, of two equally near ones the even one. -/

namespace Sys2Proof

open Machine Claims

/-! ### Patterns and their magnitudes -/

/-- The magnitude of a significand of 53 bits, or of fewer in the subnormal range, scaled by `2^k` units; a significand
of `2^53` carries into the exponent. -/
theorem lowMag_of_significand {k m : Nat} (hm : m ≤ 2 ^ 53) (hk : k = 0 ∨ 2 ^ 52 ≤ m) :
    lowMag (k * 2 ^ 52 + m) = m * 2 ^ k := by
  unfold lowMag
  by_cases hsub : k * 2 ^ 52 + m < 2 ^ 52
  · obtain rfl : k = 0 := by omega
    rw [if_pos hsub, Nat.zero_mul, Nat.zero_add, Nat.pow_zero, Nat.mul_one]
  · rw [if_neg hsub]
    obtain hlt | rfl := Nat.lt_or_eq_of_le hm
    · have hexp : (k * 2 ^ 52 + m) / 2 ^ 52 - 1 = k := by omega
      have hfrac : 2 ^ 52 + (k * 2 ^ 52 + m) % 2 ^ 52 = m := by omega
      rw [hexp, hfrac]
    · have hexp : (k * 2 ^ 52 + 2 ^ 53) / 2 ^ 52 - 1 = k + 1 := by omega
      have hfrac : 2 ^ 52 + (k * 2 ^ 52 + 2 ^ 53) % 2 ^ 52 = 2 ^ 52 := by omega
      rw [hexp, hfrac, Nat.pow_succ 2 k, Nat.pow_succ 2 52]
      ring

theorem exists_significand (p : Nat) : ∃ k m, m < 2 ^ 53 ∧ (k = 0 ∨ 2 ^ 52 ≤ m) ∧ p = k * 2 ^ 52 + m := by
  by_cases hsub : p < 2 ^ 52
  · exact ⟨0, p, by omega, .inl rfl, by omega⟩
  · exact ⟨p / 2 ^ 52 - 1, 2 ^ 52 + p % 2 ^ 52, by omega, .inr (by omega), by omega⟩

theorem lowMag_strictMono : StrictMono lowMag := by
  apply strictMono_nat_of_lt_succ
  intro p
  obtain ⟨k, m, hm, hk, rfl⟩ := exists_significand p
  rw [lowMag_of_significand hm.le hk, Nat.add_assoc, lowMag_of_significand hm (hk.imp_right (by omega))]
  exact Nat.mul_lt_mul_of_pos_right (by omega) (Nat.two_pow_pos k)

/-- The overflow limit lies half-way between the largest finite magnitude and the next one, `2^1024` (R120(c)). -/
theorem two_mul_overflow : 2 * (2 ^ 2098 - 2 ^ 2044) = lowMag (fpInfLow - 1) + lowMag fpInfLow := by
  have hmax : fpInfLow - 1 = 2045 * 2 ^ 52 + (2 ^ 53 - 1) := rfl
  have hnext : fpInfLow = 2045 * 2 ^ 52 + 2 ^ 53 := rfl
  rw [hmax, hnext, lowMag_of_significand (by omega) (by omega), lowMag_of_significand (by omega) (by omega),
    show 2098 = 54 + 2044 from rfl, show 2045 = 1 + 2044 from rfl, pow_add 2 54, pow_add 2 1]
  generalize 2 ^ 2044 = x
  omega

/-! ### The rounding -/

theorem divNearestEven_cases (num den : Nat) :
    (2 * num < (2 * (num / den) + 1) * den ∧ divNearestEven num den = num / den) ∨
    ((2 * (num / den) + 1) * den < 2 * num ∧ divNearestEven num den = num / den + 1) ∨
    (2 * num = (2 * (num / den) + 1) * den ∧ divNearestEven num den = num / den + num / den % 2) := by
  have hsplit : (2 * (num / den) + 1) * den = 2 * (den * (num / den)) + den := by ring
  have hdiv := Nat.div_add_mod num den
  rw [hsplit]
  unfold divNearestEven
  by_cases hlt : 2 * (num % den) < den
  · exact .inl ⟨by omega, if_pos hlt⟩
  · by_cases hgt : den < 2 * (num % den)
    · exact .inr (.inl ⟨by omega, by simp only [if_neg hlt, if_pos hgt]⟩)
    · exact .inr (.inr ⟨by omega, by simp only [if_neg hlt, if_neg hgt]⟩)

/-- How many binary places the last place of the result lies above the unit. -/
def Claims.fpScale (num den : Nat) : Nat := Nat.log2 (num / den) - 52

/-- The pattern that the rounding picks before it is cut off at the infinity. -/
def Claims.fpRoundUncut (num den : Nat) : Nat :=
  fpScale num den * 2 ^ 52 + divNearestEven num (den * 2 ^ fpScale num den)

theorem fpRoundLow_eq_min (num den : Nat) : fpRoundLow num den = min (fpRoundUncut num den) fpInfLow := rfl

/-- The scale leaves a significand of 53 bits, or of fewer where it is 0. -/
theorem scaled_significand (num den : Nat) :
    num / (den * 2 ^ fpScale num den) < 2 ^ 53 ∧
    (fpScale num den = 0 ∨ 2 ^ 52 ≤ num / (den * 2 ^ fpScale num den)) := by
  rw [← Nat.div_div_eq_div_mul]
  unfold fpScale
  generalize num / den = q
  have hscale : q.log2 + 1 ≤ 53 + (q.log2 - 52) := by omega
  generalize hk : q.log2 - 52 = k at hscale
  refine ⟨Nat.div_lt_of_lt_mul ?_, ?_⟩
  · calc q < 2 ^ (q.log2 + 1) := Nat.lt_log2_self
      _ ≤ 2 ^ (53 + k) := Nat.pow_le_pow_right (by omega) hscale
      _ = 2 ^ k * 2 ^ 53 := by rw [pow_add, Nat.mul_comm]
  · obtain rfl | hpos := Nat.eq_zero_or_pos k
    · exact .inl rfl
    · refine .inr ((Nat.le_div_iff_mul_le (Nat.two_pow_pos k)).mpr ?_)
      have hq : q ≠ 0 := by
        rintro rfl
        simp at hk
        omega
      calc 2 ^ 52 * 2 ^ k = 2 ^ q.log2 := by rw [← pow_add]; congr 1; omega
        _ ≤ q := Nat.log2_self_le hq

/-- The quotient lies between the magnitudes of two neighbouring patterns `p` and `p + 1`, and the rounding picks the
nearer one, of two equally near ones the even one. -/
theorem fpRoundUncut_cases (num : Nat) {den : Nat} (hden : 0 < den) :
    ∃ p, lowMag p * den ≤ num ∧ num < lowMag (p + 1) * den ∧
      ((2 * num < lowMag p * den + lowMag (p + 1) * den ∧ fpRoundUncut num den = p) ∨
       (lowMag p * den + lowMag (p + 1) * den < 2 * num ∧ fpRoundUncut num den = p + 1) ∨
       (2 * num = lowMag p * den + lowMag (p + 1) * den ∧ fpRoundUncut num den = p + p % 2)) := by
  obtain ⟨hlt, hk⟩ := scaled_significand num den
  have hcases := divNearestEven_cases num (den * 2 ^ fpScale num den)
  unfold fpRoundUncut
  generalize fpScale num den = k at *
  have hlow := Nat.div_mul_le_self num (den * 2 ^ k)
  have hhigh := Nat.lt_div_mul_add (a := num) (Nat.mul_pos hden (Nat.two_pow_pos k))
  generalize num / (den * 2 ^ k) = m at *
  have hp : lowMag (k * 2 ^ 52 + m) * den = m * (den * 2 ^ k) := by rw [lowMag_of_significand hlt.le hk]; ring
  have hnext : lowMag (k * 2 ^ 52 + m + 1) * den = m * (den * 2 ^ k) + den * 2 ^ k := by
    rw [Nat.add_assoc, lowMag_of_significand (m := m + 1) hlt (hk.imp_right (by omega))]
    ring
  have hmid : (2 * m + 1) * (den * 2 ^ k) = m * (den * 2 ^ k) + (m * (den * 2 ^ k) + den * 2 ^ k) := by ring
  have heven : (k * 2 ^ 52 + m) % 2 = m % 2 := by omega
  refine ⟨k * 2 ^ 52 + m, ?_⟩
  rw [hp, hnext, heven, Nat.add_assoc, Nat.add_assoc, Nat.add_right_inj, Nat.add_right_inj, Nat.add_right_inj, ← hmid]
  exact ⟨hlow, hhigh, hcases⟩

/-! ### Overflow and distance -/

theorem fpRoundUncut_lt_iff (num : Nat) {den : Nat} (hden : 0 < den) :
    fpRoundUncut num den < fpInfLow ↔ num < (2 ^ 2098 - 2 ^ 2044) * den := by
  obtain ⟨p, hlow, hhigh, hcases⟩ := fpRoundUncut_cases num hden
  have hlimit : 2 * ((2 ^ 2098 - 2 ^ 2044) * den) = lowMag (fpInfLow - 1) * den + lowMag fpInfLow * den := by
    rw [← Nat.mul_assoc, two_mul_overflow, Nat.add_mul]
  have hinf : fpInfLow % 2 = 0 ∧ 0 < fpInfLow := by decide
  have mono : ∀ {q q' : Nat}, q ≤ q' → lowMag q * den ≤ lowMag q' * den :=
    fun h => Nat.mul_le_mul_right den (lowMag_strictMono.monotone h)
  generalize (2 ^ 2098 - 2 ^ 2044) * den = limit at *
  obtain hbelow | hlast | habove : p + 1 < fpInfLow ∨ p + 1 = fpInfLow ∨ fpInfLow ≤ p := by omega
  · have hnext : lowMag (p + 1) * den ≤ lowMag (fpInfLow - 1) * den := mono (by omega)
    have hgap : lowMag (fpInfLow - 1) * den ≤ lowMag fpInfLow * den := mono (by omega)
    omega
  · rw [← hlast, Nat.add_sub_cancel] at hlimit
    omega
  · have hgap : lowMag (fpInfLow - 1) * den < lowMag fpInfLow * den :=
      Nat.mul_lt_mul_of_pos_right (lowMag_strictMono (by omega)) hden
    have hinfLow : lowMag fpInfLow * den ≤ lowMag p * den := mono habove
    omega

/-- No pattern is nearer than the one that the rounding picks, and of two equally near ones it is the even one. -/
theorem fpRoundUncut_nearest (num : Nat) {den : Nat} (hden : 0 < den) (p : Nat) :
    ((lowMag (fpRoundUncut num den) * den : Int) - num).natAbs ≤ ((lowMag p * den : Int) - num).natAbs ∧
    (((lowMag (fpRoundUncut num den) * den : Int) - num).natAbs = ((lowMag p * den : Int) - num).natAbs →
      p ≠ fpRoundUncut num den → fpRoundUncut num den % 2 = 0) := by
  obtain ⟨q, hlow, hhigh, hcases⟩ := fpRoundUncut_cases num hden
  generalize fpRoundUncut num den = r at *
  have hr : (r = q ∧ lowMag r * den = lowMag q * den) ∨ (r = q + 1 ∧ lowMag r * den = lowMag (q + 1) * den) := by
    obtain rfl | rfl : r = q ∨ r = q + 1 := by omega
    · exact .inl ⟨rfl, rfl⟩
    · exact .inr ⟨rfl, rfl⟩
  have strict : ∀ {x y : Nat}, x < y → lowMag x * den < lowMag y * den :=
    fun h => Nat.mul_lt_mul_of_pos_right (lowMag_strictMono h) hden
  have hp : (p < q ∧ lowMag p * den < lowMag q * den) ∨ (p = q ∧ lowMag p * den = lowMag q * den) ∨
      (p = q + 1 ∧ lowMag p * den = lowMag (q + 1) * den) ∨
      (q + 1 < p ∧ lowMag (q + 1) * den < lowMag p * den) := by
    obtain h | rfl | rfl | h : p < q ∨ p = q ∨ p = q + 1 ∨ q + 1 < p := by omega
    · exact .inl ⟨h, strict h⟩
    · exact .inr (.inl ⟨rfl, rfl⟩)
    · exact .inr (.inr (.inl ⟨rfl, rfl⟩))
    · exact .inr (.inr (.inr ⟨h, strict h⟩))
  simp only [← Int.natCast_mul]
  generalize lowMag p * den = dp at *
  generalize lowMag r * den = dr at *
  generalize lowMag q * den = dq at *
  generalize lowMag (q + 1) * den = dn at *
  omega

/-- Settles O37: below the limit nothing is cut off, so the pattern is the nearest one; from the limit on the infinity
cuts it off. -/
theorem roundingIsToNearestEven : Obligations.RoundingIsToNearestEven := by
  unfold Obligations.RoundingIsToNearestEven
  intro num den hden
  rw [fpRoundLow_eq_min]
  refine ⟨fun hlimit => ?below, fun hlimit => ?above⟩
  case below =>
    have hlt := (fpRoundUncut_lt_iff num hden).mpr hlimit
    rw [Nat.min_eq_left hlt.le]
    exact ⟨hlt, fun p _ => fpRoundUncut_nearest num hden p⟩
  case above =>
    have hge := (fpRoundUncut_lt_iff num hden).not.mpr (Nat.not_lt.mpr hlimit)
    exact Nat.min_eq_right (Nat.not_lt.mp hge)

end Sys2Proof

/-! PROOF. Patterns as numbers (R6, R120): a word is its sign before 63 bits, and the rounding gives back the 63 bits of
every magnitude that has them. -/

namespace Sys2Proof

open Machine Claims

/-- The 63 bits of a pattern below its sign. -/
def Claims.fpLow (w : Word) : Nat := w.toNat % 2 ^ 63

theorem fpLow_lt (w : Word) : fpLow w < 2 ^ 63 := Nat.mod_lt _ (by decide)

theorem fpExp_eq (w : Word) : fpExp w = fpLow w / 2 ^ 52 := by
  rw [fpExp, BitVec.extractLsb'_toNat, Nat.shiftRight_eq_div_pow, fpLow]
  omega

theorem fpFrac_eq (w : Word) : fpFrac w = fpLow w % 2 ^ 52 := by
  rw [fpFrac, BitVec.extractLsb'_toNat, Nat.shiftRight_eq_div_pow, fpLow]
  omega

theorem fpMag_eq_lowMag (w : Word) : fpMag w = lowMag (fpLow w) := by
  rw [fpMag, lowMag, fpExp_eq, fpFrac_eq]
  by_cases hsub : fpLow w < 2 ^ 52
  · rw [if_pos hsub, if_pos (by omega), Nat.mod_eq_of_lt hsub]
  · rw [if_neg hsub, if_neg (by omega)]

theorem isFinite_iff (w : Word) : isFinite w ↔ fpLow w < fpInfLow := by
  have hlt := fpLow_lt w
  rw [isFinite, fpExp_eq, fpInfLow]
  omega

theorem fpLow_fpPattern (neg : Bool) {low : Nat} (h : low < 2 ^ 63) : fpLow (fpPattern neg low) = low := by
  rw [fpLow, fpPattern_toNat neg low h]
  omega

@[simp] theorem msb_fpPattern (neg : Bool) (low : Nat) : (fpPattern neg low).msb = neg := by
  rw [fpPattern, BitVec.msb_append]
  simp

/-- A word is put together again from its sign and its 63 other bits. -/
theorem fpPattern_msb_fpLow (w : Word) : fpPattern w.msb (fpLow w) = w := by
  apply BitVec.eq_of_toNat_eq
  have hw := w.isLt
  rw [fpPattern_toNat _ _ (fpLow_lt w), fpLow, BitVec.msb_eq_decide]
  by_cases hneg : 2 ^ 63 ≤ w.toNat
  · rw [decide_eq_true hneg, Bool.toNat_true]
    omega
  · rw [decide_eq_false hneg, Bool.toNat_false]
    omega

/-! ### The round trip -/

/-- Of the patterns that are nearest to a pattern's own magnitude there is one, the pattern. -/
theorem fpRoundLow_lowMag {p : Nat} (h : p < fpInfLow) : fpRoundLow (lowMag p) 1 = p := by
  obtain ⟨hnearest, -⟩ := fpRoundUncut_nearest (lowMag p) Nat.one_pos p
  have hsame : lowMag (fpRoundUncut (lowMag p) 1) = lowMag p := by omega
  rw [fpRoundLow_eq_min, lowMag_strictMono.injective hsame, Nat.min_eq_left h.le]

/-- Settles O38: an infinity is its sign before fixed bits; a finite pattern is nearest to its own magnitude. -/
theorem floatPatternsRoundTrip : Obligations.FloatPatternsRoundTrip := by
  unfold Obligations.FloatPatternsRoundTrip
  intro v hnan
  by_cases hexp : fpExp v = 2047
  · by_cases hfrac : fpFrac v = 0
    · have hunpack : fpUnpack v = .inf v.msb := by rw [fpUnpack, if_pos hexp, if_pos hfrac]
      have hlow : fpInfLow = fpLow v := by
        rw [fpExp_eq] at hexp
        rw [fpFrac_eq] at hfrac
        rw [fpInfLow]
        omega
      exact .inl ⟨v.msb, hunpack, by rw [fpRound, fpInf, hlow, fpPattern_msb_fpLow]⟩
    · simp [fpIsNan, fpUnpack, hexp, hfrac] at hnan
  · have hround : fpRoundLow (fpMag v) 1 = fpLow v := by
      rw [fpMag_eq_lowMag, fpRoundLow_lowMag ((isFinite_iff v).mp hexp)]
    exact .inr ⟨v.msb, fpMag v, fpUnpack_of_finite v hexp, by rw [fpRound, hround, fpPattern_msb_fpLow]⟩

end Sys2Proof

/-! PROOF. Correct rounding of an exact result (R120): the comparison of distances in whole numbers, carried to the
rationals, where a pattern of the other sign is never nearer than the zero. -/

namespace Sys2Proof

open Machine Claims

/-- The sign as a factor. -/
def Claims.fpSign (neg : Bool) : ℚ := if neg then -1 else 1

theorem abs_fpSign (neg : Bool) : |fpSign neg| = 1 := by
  cases neg <;> simp [fpSign]

theorem fpSign_not (neg : Bool) : fpSign (!neg) = -fpSign neg := by
  cases neg <;> simp [fpSign]

theorem fpSign_xor (n m : Bool) : fpSign (n != m) = fpSign n * fpSign m := by
  cases n <;> cases m <;> simp [fpSign]

/-- The exact result of a sign and a quotient of units, as a rational. -/
def Claims.ratioValue (neg : Bool) (num den : Nat) : ℚ := fpSign neg * (num / den : ℚ) / 2 ^ 1074

theorem fpValue_eq (w : Word) : fpValue w = fpSign w.msb * (fpMag w : ℚ) / 2 ^ 1074 := rfl

/-- The distance of two numbers of the same sign, in units. -/
theorem abs_signed_sub (neg : Bool) (x y : ℚ) :
    |fpSign neg * x / 2 ^ 1074 - fpSign neg * y / 2 ^ 1074| = |x - y| / 2 ^ 1074 := by
  rw [← sub_div, ← mul_sub, abs_div, abs_mul, abs_fpSign, one_mul, abs_of_pos (a := (2 ^ 1074 : ℚ)) (by positivity)]

/-- The distance of a magnitude from a quotient, in whole numbers. -/
theorem abs_sub_div_eq (m num : Nat) {den : Nat} (hden : 0 < den) :
    |(m : ℚ) - num / den| = ((((m * den : Int) - num).natAbs : Nat) : ℚ) / den := by
  have hpos : (0 : ℚ) < den := by exact_mod_cast hden
  have hsub : (m : ℚ) - num / den = (m * den - num) / den := by field_simp
  rw [hsub, abs_div, abs_of_pos hpos, Nat.cast_natAbs, Int.cast_abs]
  push_cast
  rfl

/-- `fpRoundUncut_nearest` for the distances as rationals. -/
theorem fpRoundUncut_nearest_rat (num : Nat) {den : Nat} (hden : 0 < den) (p : Nat) :
    |(lowMag (fpRoundUncut num den) : ℚ) - num / den| ≤ |(lowMag p : ℚ) - num / den| ∧
    (|(lowMag (fpRoundUncut num den) : ℚ) - num / den| = |(lowMag p : ℚ) - num / den| →
      p ≠ fpRoundUncut num den → fpRoundUncut num den % 2 = 0) := by
  have hpos : (0 : ℚ) < den := by exact_mod_cast hden
  obtain ⟨hle, htie⟩ := fpRoundUncut_nearest num hden p
  rw [abs_sub_div_eq _ num hden, abs_sub_div_eq _ num hden, div_le_div_iff_of_pos_right hpos, div_left_inj' hpos.ne',
    Nat.cast_le, Nat.cast_inj]
  exact ⟨hle, htie⟩

theorem abs_ratioValue (neg : Bool) (num den : Nat) : |ratioValue neg num den| = (num / den : ℚ) / 2 ^ 1074 := by
  rw [ratioValue, abs_div, abs_mul, abs_fpSign, one_mul, abs_of_nonneg (by positivity),
    abs_of_pos (a := (2 ^ 1074 : ℚ)) (by positivity)]

/-- The overflow limit in units (R120(c)). -/
theorem overflowLimit_mul : overflowLimit * 2 ^ 1074 = ((2 ^ 2098 - 2 ^ 2044 : Nat) : ℚ) := by
  rw [Nat.cast_sub (pow_le_pow_right₀ one_le_two (by omega)), Nat.cast_pow, Nat.cast_pow, Nat.cast_ofNat, overflowLimit,
    sub_mul, ← pow_add, ← pow_add]

theorem abs_ratioValue_lt_iff (neg : Bool) (num : Nat) {den : Nat} (hden : 0 < den) :
    |ratioValue neg num den| < overflowLimit ↔ num < (2 ^ 2098 - 2 ^ 2044) * den := by
  have hpos : (0 : ℚ) < den := by exact_mod_cast hden
  rw [abs_ratioValue, div_lt_iff₀ (by positivity), overflowLimit_mul, div_lt_iff₀ hpos, ← Nat.cast_mul, Nat.cast_lt]

/-- A finite pattern is at least as far from the exact result as some pattern of the result's sign, and as far only
where the two are the same number: a pattern of the other sign is farther than the zero, or is the other zero. -/
theorem exists_sameSign_nearer (neg : Bool) (num den : Nat) (w : Word) :
    ∃ p, |(lowMag p : ℚ) - num / den| / 2 ^ 1074 ≤ |fpValue w - ratioValue neg num den| ∧
      (|(lowMag p : ℚ) - num / den| / 2 ^ 1074 = |fpValue w - ratioValue neg num den| →
        fpValue w = fpSign neg * (lowMag p : ℚ) / 2 ^ 1074) := by
  have hx : (0 : ℚ) ≤ num / den := by positivity
  rw [fpValue_eq, fpMag_eq_lowMag, ratioValue]
  by_cases hsign : w.msb = neg
  · refine ⟨fpLow w, ?_, fun _ => by rw [hsign]⟩
    rw [hsign, abs_signed_sub]
  · have hneg : fpSign w.msb * (lowMag (fpLow w) : ℚ) = fpSign neg * -(lowMag (fpLow w) : ℚ) := by
      rw [Bool.eq_not_of_ne hsign, fpSign_not, neg_mul_comm]
    have hzero : lowMag 0 = 0 := rfl
    have hm : (0 : ℚ) ≤ lowMag (fpLow w) := Nat.cast_nonneg _
    rw [hneg]
    refine ⟨0, ?_, ?_⟩
    all_goals
      rw [abs_signed_sub, hzero, Nat.cast_zero, zero_sub, abs_neg, abs_of_nonneg hx, ← neg_add', abs_neg,
        abs_of_nonneg (add_nonneg hm hx)]
    · gcongr
      exact le_add_of_nonneg_left hm
    · intro heq
      have hfar : (lowMag (fpLow w) : ℚ) = 0 := by
        rw [div_left_inj' (by positivity)] at heq
        linarith
      rw [hfar, neg_zero]

/-- The last bit of a pattern is that of its low 63 bits. -/
theorem getLsbD_zero_fpPattern (neg : Bool) {low : Nat} (h : low < 2 ^ 63) (heven : low % 2 = 0) :
    (fpPattern neg low).getLsbD 0 = false := by
  rw [BitVec.getLsbD, fpPattern_toNat neg low h, Nat.testBit_zero, decide_eq_false]
  omega

/-- The rounding of a quotient of units, before the sign of the exact result, is the correctly rounded result. -/
theorem roundsTo_ratioValue (neg : Bool) (num : Nat) {den : Nat} (hden : 0 < den) :
    RoundsTo (ratioValue neg num den) neg (fpPattern neg (fpRoundLow num den)) := by
  refine ⟨msb_fpPattern _ _, fun hlt => ?below, fun hge => ?above⟩
  case above =>
    have hlimit := (abs_ratioValue_lt_iff neg num hden).not.mp (not_lt.mpr hge)
    have hcut := Nat.not_lt.mp ((fpRoundUncut_lt_iff num hden).not.mpr hlimit)
    rw [fpRoundLow_eq_min, Nat.min_eq_right hcut, fpInf]
  case below =>
    have hfinite := (fpRoundUncut_lt_iff num hden).mpr ((abs_ratioValue_lt_iff neg num hden).mp hlt)
    have hlow : fpRoundUncut num den < 2 ^ 63 := hfinite.trans (by decide)
    have hnearest := fpRoundUncut_nearest_rat num hden
    rw [fpRoundLow_eq_min, Nat.min_eq_left hfinite.le]
    generalize fpRoundUncut num den = r at *
    have hvalue : fpValue (fpPattern neg r) = fpSign neg * (lowMag r : ℚ) / 2 ^ 1074 := by
      rw [fpValue_eq, msb_fpPattern, fpMag_eq_lowMag, fpLow_fpPattern neg hlow]
    have hdist : |fpValue (fpPattern neg r) - ratioValue neg num den| = |(lowMag r : ℚ) - num / den| / 2 ^ 1074 := by
      rw [hvalue, ratioValue, abs_signed_sub]
    refine ⟨(isFinite_iff _).mpr (by rwa [fpLow_fpPattern neg hlow]), fun w _ => ?_⟩
    obtain ⟨p, hfar, hsame⟩ := exists_sameSign_nearer neg num den w
    obtain ⟨hle, htie⟩ := hnearest p
    rw [hdist]
    have hscaled : |(lowMag r : ℚ) - num / den| / 2 ^ 1074 ≤ |(lowMag p : ℚ) - num / den| / 2 ^ 1074 := by gcongr
    refine ⟨hscaled.trans hfar, fun heq hne => ?_⟩
    have hp : |(lowMag p : ℚ) - num / den| / 2 ^ 1074 = |fpValue w - ratioValue neg num den| :=
      le_antisymm hfar (heq ▸ hscaled)
    have hequal : |(lowMag r : ℚ) - num / den| = |(lowMag p : ℚ) - num / den| :=
      (div_left_inj' (by positivity)).mp (heq.trans hp.symm)
    have hother : p ≠ r := by
      rintro rfl
      exact hne ((hsame hp).trans hvalue.symm)
    exact getLsbD_zero_fpPattern neg hlow (htie hequal hother)

end Sys2Proof

/-! PROOF. The four floating-point instructions (R120 to R126): each writes what `fpResult` answers, which is the
rounded exact result, an infinity, or some NaN. -/

namespace Sys2Proof

open Machine Claims

/-! ### What is written -/

theorem addf_writes (a b c : Reg) (s : State) : Writes (.addf a b c) s a (fpResult .addf (s.reg b) (s.reg c)) :=
  writes_of_exec_eq_writeBack rfl

theorem subf_writes (a b c : Reg) (s : State) : Writes (.subf a b c) s a (fpResult .subf (s.reg b) (s.reg c)) :=
  writes_of_exec_eq_writeBack rfl

theorem mulf_writes (a b c : Reg) (s : State) : Writes (.mulf a b c) s a (fpResult .mulf (s.reg b) (s.reg c)) :=
  writes_of_exec_eq_writeBack rfl

/-- Settles O36: the three end in the write of their result, whatever the operands are. -/
theorem floatOperationsComplete : Obligations.FloatOperationsComplete := by
  unfold Obligations.FloatOperationsComplete
  exact fun a b c s => ⟨addf_writes a b c s, subf_writes a b c s, mulf_writes a b c s⟩

/-- The two zero patterns are zero divisors (R125; D19). -/
theorem fpIsZero_of_eq {w : Word} (h : w = 0 ∨ w = 0x8000000000000000) : fpIsZero w = true := by
  obtain rfl | rfl := h
  · decide
  · decide

/-- Settles O34: the zero test is true of the two zero patterns alone. -/
theorem divfFaultsExactlyOnZeroDivisors : Obligations.DivfFaultsExactlyOnZeroDivisors := by
  unfold Obligations.DivfFaultsExactlyOnZeroDivisors
  intro a b c s
  exact ⟨fun h => ⟨_, execDivf_of_zero a b c s (fpIsZero_of_eq h), setStatus_faults s _⟩,
    fun hpos hneg => divf_writes a b hpos hneg⟩

section Result

variable {op : FpOp} {x y : Word}

theorem fpResult_of_ratio {neg : Bool} {num den : Nat}
    (h : fpExact op (fpUnpack x) (fpUnpack y) = .ratio neg num den) :
    fpResult op x y = fpPattern neg (fpRoundLow num den) := by
  rw [fpResult, h, fpRound]

theorem fpResult_of_inf {neg : Bool} (h : fpExact op (fpUnpack x) (fpUnpack y) = .inf neg) :
    fpResult op x y = fpInf neg := by
  rw [fpResult, h, fpRound]

theorem fpResult_isNan (h : fpExact op (fpUnpack x) (fpUnpack y) = .nan) : fpIsNan (fpResult op x y) = true := by
  rw [fpResult, h, fpRound]
  exact fpNanPattern_isNan op x y

/-- An operation whose exact result is a quotient of units writes its correct rounding. -/
theorem fpResult_roundsTo {neg : Bool} {num den : Nat} (hden : 0 < den)
    (h : fpExact op (fpUnpack x) (fpUnpack y) = .ratio neg num den) :
    RoundsTo (ratioValue neg num den) neg (fpResult op x y) :=
  fpResult_of_ratio h ▸ roundsTo_ratioValue neg num hden

end Result

/-! ### Finite operands -/

/-- A finite pattern is its signed count of units (R6). -/
theorem fpValue_eq_fpSigned (w : Word) : fpValue w = (fpSigned w.msb (fpMag w) : ℚ) / 2 ^ 1074 := by
  rw [fpValue_eq, fpSigned, fpSign]
  cases w.msb <;> simp

/-- A whole number is its sign times its magnitude. -/
theorem fpSign_mul_natAbs (z : Int) : fpSign (decide (z < 0)) * (z.natAbs : ℚ) = z := by
  rw [Nat.cast_natAbs, Int.cast_abs]
  by_cases hz : z < 0
  · have hneg : (z : ℚ) < 0 := Int.cast_lt_zero.mpr hz
    rw [decide_eq_true hz, abs_of_neg hneg]
    simp [fpSign]
  · have hnonneg : (0 : ℚ) ≤ z := Int.cast_nonneg (Int.not_lt.mp hz)
    rw [decide_eq_false hz, abs_of_nonneg hnonneg]
    simp [fpSign]

/-- The exact sum of two finite numbers, with the sign of R120(f) where it is zero. -/
theorem fpAdd_fin (n m : Bool) (p q : Nat) :
    ∃ neg num, fpAdd (.fin n p) (.fin m q) = .ratio neg num 1 ∧
      ratioValue neg num 1 = ((fpSigned n p + fpSigned m q : Int) : ℚ) / 2 ^ 1074 ∧
      (neg = true ↔ fpSigned n p + fpSigned m q < 0 ∨ (fpSigned n p + fpSigned m q = 0 ∧ n = true ∧ m = true)) := by
  simp only [fpAdd]
  generalize fpSigned n p + fpSigned m q = z
  by_cases hz : z = 0
  · exact ⟨n && m, 0, by rw [if_pos hz], by simp [ratioValue, hz], by simp [hz]⟩
  · refine ⟨decide (z < 0), z.natAbs, by rw [if_neg hz], ?_, by simp [hz]⟩
    rw [ratioValue, Nat.cast_one, div_one, fpSign_mul_natAbs]

theorem div_unit_neg_iff (z : Int) : (z : ℚ) / 2 ^ 1074 < 0 ↔ z < 0 := by
  rw [div_lt_iff₀ (by positivity), zero_mul, Int.cast_lt_zero]

theorem div_unit_eq_zero_iff (z : Int) : (z : ℚ) / 2 ^ 1074 = 0 ↔ z = 0 := by
  rw [div_eq_zero_iff, or_iff_left (by positivity), Int.cast_eq_zero]

/-- An operation whose exact result is a sum of two finite numbers `x` and `y` writes the correctly rounded sum. -/
theorem fpAdd_roundsTo {op : FpOp} {v w : Word} {n m : Bool} {p q : Nat} {x y : ℚ}
    (h : fpExact op (fpUnpack v) (fpUnpack w) = fpAdd (.fin n p) (.fin m q)) (hx : x = (fpSigned n p : ℚ) / 2 ^ 1074)
    (hy : y = (fpSigned m q : ℚ) / 2 ^ 1074) :
    ∃ neg, RoundsTo (x + y) neg (fpResult op v w) ∧
      (neg = true ↔ x + y < 0 ∨ (x + y = 0 ∧ n = true ∧ m = true)) := by
  obtain ⟨neg, num, hexact, hvalue, hneg⟩ := fpAdd_fin n m p q
  have hsum : x + y = ((fpSigned n p + fpSigned m q : Int) : ℚ) / 2 ^ 1074 := by rw [hx, hy, ← add_div, Int.cast_add]
  refine ⟨neg, ?_, ?_⟩
  · rw [hsum, ← hvalue]
    exact fpResult_roundsTo Nat.one_pos (h.trans hexact)
  · rw [hsum, div_unit_neg_iff, div_unit_eq_zero_iff]
    exact hneg

/-- Settles O30: the exact sum is a count of units, and its rounding is correct. -/
theorem addfIsCorrectlyRounded : Obligations.AddfIsCorrectlyRounded := by
  unfold Obligations.AddfIsCorrectlyRounded
  intro a b c s hb hc
  obtain ⟨t, hexec, hframe⟩ := addf_writes a b c s
  have hexact : fpExact .addf (fpUnpack (s.reg b)) (fpUnpack (s.reg c)) =
      fpAdd (.fin (s.reg b).msb (fpMag (s.reg b))) (.fin (s.reg c).msb (fpMag (s.reg c))) := by
    rw [fpUnpack_of_finite _ hb, fpUnpack_of_finite _ hc, fpExact]
  obtain ⟨neg, hround, hneg⟩ := fpAdd_roundsTo hexact (fpValue_eq_fpSigned _) (fpValue_eq_fpSigned _)
  exact ⟨t, _, neg, hexec, hframe, hround, hneg⟩

theorem fpSigned_not (neg : Bool) (mag : Nat) : fpSigned (!neg) mag = -fpSigned neg mag := by
  cases neg <;> simp [fpSigned]

/-- Settles O31: the difference is the sum with the second sign flipped. -/
theorem subfIsCorrectlyRounded : Obligations.SubfIsCorrectlyRounded := by
  unfold Obligations.SubfIsCorrectlyRounded
  intro a b c s hb hc
  obtain ⟨t, hexec, hframe⟩ := subf_writes a b c s
  have hexact : fpExact .subf (fpUnpack (s.reg b)) (fpUnpack (s.reg c)) =
      fpAdd (.fin (s.reg b).msb (fpMag (s.reg b))) (.fin (!(s.reg c).msb) (fpMag (s.reg c))) := by
    rw [fpUnpack_of_finite _ hb, fpUnpack_of_finite _ hc, fpExact, fpSub, FpVal.neg]
  have hflipped : -fpValue (s.reg c) = (fpSigned (!(s.reg c).msb) (fpMag (s.reg c)) : ℚ) / 2 ^ 1074 := by
    rw [fpValue_eq_fpSigned, fpSigned_not, Int.cast_neg, neg_div]
  obtain ⟨neg, hround, hneg⟩ := fpAdd_roundsTo hexact (fpValue_eq_fpSigned _) hflipped
  rw [← sub_eq_add_neg] at hround hneg
  refine ⟨t, _, neg, hexec, hframe, hround, hneg.trans ?_⟩
  rw [Bool.not_eq_true']

theorem unitsPerOne_cast : ((unitsPerOne : Nat) : ℚ) = 2 ^ 1074 := by
  rw [unitsPerOne, Nat.cast_pow, Nat.cast_ofNat]

theorem unitsPerOne_pos : 0 < unitsPerOne := by
  rw [unitsPerOne]
  positivity

/-- Settles O32: the product of two counts of units counts units of a unit. -/
theorem mulfIsCorrectlyRounded : Obligations.MulfIsCorrectlyRounded := by
  unfold Obligations.MulfIsCorrectlyRounded
  intro a b c s hb hc
  obtain ⟨t, hexec, hframe⟩ := mulf_writes a b c s
  have hexact : fpExact .mulf (fpUnpack (s.reg b)) (fpUnpack (s.reg c)) =
      .ratio ((s.reg b).msb != (s.reg c).msb) (fpMag (s.reg b) * fpMag (s.reg c)) unitsPerOne := by
    rw [fpUnpack_of_finite _ hb, fpUnpack_of_finite _ hc, fpExact, fpMul]
  have hproduct : fpValue (s.reg b) * fpValue (s.reg c) =
      ratioValue ((s.reg b).msb != (s.reg c).msb) (fpMag (s.reg b) * fpMag (s.reg c)) unitsPerOne := by
    rw [fpValue_eq, fpValue_eq, ratioValue, fpSign_xor, unitsPerOne_cast, Nat.cast_mul]
    generalize (2 : ℚ) ^ 1074 = unit
    ring
  rw [hproduct]
  exact ⟨t, _, hexec, hframe, fpResult_roundsTo unitsPerOne_pos hexact⟩

/-- A number is zero exactly where its magnitude is. -/
theorem fpValue_eq_zero_of_fpMag {w : Word} (h : fpMag w = 0) : fpValue w = 0 := by
  rw [fpValue_eq, h, Nat.cast_zero, mul_zero, zero_div]

theorem fpIsZero_of_fpMag {w : Word} (hw : isFinite w) (h : fpMag w ≠ 0) : fpIsZero w = false := by
  rw [fpIsZero, fpUnpack_of_finite w hw]
  exact beq_eq_false_iff_ne.mpr h

theorem divf_writes_of_nonZero (a b : Reg) {c : Reg} {s : State} (h : fpIsZero (s.reg c) = false) :
    Writes (.divf a b c) s a (fpResult .divf (s.reg b) (s.reg c)) :=
  writes_of_exec_eq_writeBack (execDivf_of_nonZero a b c s h)

/-- Dividing by a signed number of units: a sign is its own inverse. -/
theorem ratioValue_xor_div (n m : Bool) (p : Nat) {q : Nat} (hq : q ≠ 0) :
    ratioValue (n != m) (p * unitsPerOne) q =
      fpSign n * (p : ℚ) / 2 ^ 1074 / (fpSign m * (q : ℚ) / 2 ^ 1074) := by
  have hsign : fpSign m * fpSign m = 1 := by cases m <;> simp [fpSign]
  have hm : fpSign m ≠ 0 := left_ne_zero_of_mul_eq_one hsign
  have hq' : (q : ℚ) ≠ 0 := Nat.cast_ne_zero.mpr hq
  have hinv : (fpSign m)⁻¹ = fpSign m := inv_eq_of_mul_eq_one_left hsign
  rw [ratioValue, fpSign_xor, Nat.cast_mul, unitsPerOne_cast]
  generalize hU : (2 : ℚ) ^ 1074 = unit
  have hunit : unit ≠ 0 := hU ▸ by positivity
  calc fpSign n * fpSign m * (p * unit / q) / unit = fpSign n * (fpSign m)⁻¹ * (p * unit / q) / unit := by rw [hinv]
    _ = fpSign n * p / unit / (fpSign m * q / unit) := by field_simp

/-- Settles O33: the units of dividend and divisor cancel. -/
theorem divfIsCorrectlyRounded : Obligations.DivfIsCorrectlyRounded := by
  unfold Obligations.DivfIsCorrectlyRounded
  intro a b c s hb hc hne
  have hmag : fpMag (s.reg c) ≠ 0 := fun h => hne (fpValue_eq_zero_of_fpMag h)
  obtain ⟨t, hexec, hframe⟩ := divf_writes_of_nonZero a b (fpIsZero_of_fpMag hc hmag)
  have hexact : fpExact .divf (fpUnpack (s.reg b)) (fpUnpack (s.reg c)) =
      .ratio ((s.reg b).msb != (s.reg c).msb) (fpMag (s.reg b) * unitsPerOne) (fpMag (s.reg c)) := by
    rw [fpUnpack_of_finite _ hb, fpUnpack_of_finite _ hc, fpExact, fpDiv, if_neg hmag]
  have hquotient : fpValue (s.reg b) / fpValue (s.reg c) =
      ratioValue ((s.reg b).msb != (s.reg c).msb) (fpMag (s.reg b) * unitsPerOne) (fpMag (s.reg c)) := by
    rw [fpValue_eq, fpValue_eq, ratioValue_xor_div _ _ _ hmag]
  rw [hquotient]
  exact ⟨t, _, hexec, hframe, fpResult_roundsTo (Nat.pos_of_ne_zero hmag) hexact⟩

/-! ### NaNs and infinities -/

theorem Claims.Writes.inf {i : Instr} {s : State} {a : Reg} {op : FpOp} {x y : Word} {neg : Bool}
    (h : Writes i s a (fpResult op x y)) (he : fpExact op (fpUnpack x) (fpUnpack y) = .inf neg) :
    Writes i s a (fpInf neg) :=
  fpResult_of_inf he ▸ h

theorem Claims.Writes.nan {i : Instr} {s : State} {a : Reg} {op : FpOp} {x y : Word}
    (h : Writes i s a (fpResult op x y)) (he : fpExact op (fpUnpack x) (fpUnpack y) = .nan) : WritesNan i s a :=
  ⟨_, h, fpResult_isNan he⟩

theorem fpUnpack_of_isNan {w : Word} (h : fpIsNan w = true) : fpUnpack w = .nan := eq_of_beq h

/-- A NaN operand makes every exact result a NaN (R120(e)). -/
theorem fpExact_of_nan (op : FpOp) {x y : FpVal} (h : x = .nan ∨ y = .nan) : fpExact op x y = .nan := by
  obtain rfl | rfl := h
  · cases op <;> rfl
  · cases op <;> cases x <;> rfl

/-- A zero divided by an infinity. -/
theorem fpRoundLow_zero : fpRoundLow 0 1 = 0 := fpRoundLow_lowMag (p := 0) (by decide)

section Special

variable {b c : Reg} {s : State}

theorem nan_operand_writesNan (a : Reg) (h : fpIsNan (s.reg b) = true ∨ fpIsNan (s.reg c) = true) :
    WritesNan (.addf a b c) s a ∧ WritesNan (.subf a b c) s a ∧ WritesNan (.mulf a b c) s a ∧
    (s.reg c ≠ 0 → s.reg c ≠ 0x8000000000000000 → WritesNan (.divf a b c) s a) := by
  have hnan (op : FpOp) : fpExact op (fpUnpack (s.reg b)) (fpUnpack (s.reg c)) = .nan :=
    fpExact_of_nan op (h.imp fpUnpack_of_isNan fpUnpack_of_isNan)
  exact ⟨(addf_writes a b c s).nan (hnan _), (subf_writes a b c s).nan (hnan _), (mulf_writes a b c s).nan (hnan _),
    fun hpos hneg => (divf_writes a b hpos hneg).nan (hnan _)⟩

theorem inf_inf_writes (a : Reg) {n m : Bool} (hb : s.reg b = fpInf n) (hc : s.reg c = fpInf m) :
    (n = m → Writes (.addf a b c) s a (fpInf n) ∧ WritesNan (.subf a b c) s a) ∧
    (n ≠ m → WritesNan (.addf a b c) s a ∧ Writes (.subf a b c) s a (fpInf n)) ∧
    Writes (.mulf a b c) s a (fpInf (n != m)) ∧ WritesNan (.divf a b c) s a := by
  have hnonZero : fpIsZero (s.reg c) = false := by rw [fpIsZero, hc, fpUnpack_fpInf]
  refine ⟨fun hsame => ⟨?_, ?_⟩, fun hdiffer => ⟨?_, ?_⟩, ?_, ?_⟩
  · exact (addf_writes a b c s).inf (by simp [hb, hc, fpExact, fpAdd, hsame])
  · exact (subf_writes a b c s).nan (by simp [hb, hc, fpExact, fpSub, fpAdd, FpVal.neg, hsame])
  · exact (addf_writes a b c s).nan (by simp [hb, hc, fpExact, fpAdd, hdiffer])
  · exact (subf_writes a b c s).inf (by simp [hb, hc, fpExact, fpSub, fpAdd, FpVal.neg, Bool.eq_not_of_ne hdiffer])
  · exact (mulf_writes a b c s).inf (by simp [hb, hc, fpExact, fpMul])
  · exact (divf_writes_of_nonZero a b hnonZero).nan (by simp [hb, hc, fpExact, fpDiv])

theorem inf_finite_writes (a : Reg) {n : Bool} (hb : s.reg b = fpInf n) (hc : isFinite (s.reg c)) :
    Writes (.addf a b c) s a (fpInf n) ∧ Writes (.subf a b c) s a (fpInf n) ∧
    (fpMag (s.reg c) = 0 → WritesNan (.mulf a b c) s a) ∧
    (fpMag (s.reg c) ≠ 0 →
      Writes (.mulf a b c) s a (fpInf (n != (s.reg c).msb)) ∧
      Writes (.divf a b c) s a (fpInf (n != (s.reg c).msb))) := by
  have hfin := fpUnpack_of_finite _ hc
  refine ⟨?_, ?_, fun hzero => ?_, fun hne => ⟨?_, ?_⟩⟩
  · exact (addf_writes a b c s).inf (by simp [hb, hfin, fpExact, fpAdd])
  · exact (subf_writes a b c s).inf (by simp [hb, hfin, fpExact, fpSub, fpAdd, FpVal.neg])
  · exact (mulf_writes a b c s).nan (by simp [hb, hfin, fpExact, fpMul, hzero])
  · exact (mulf_writes a b c s).inf (by simp [hb, hfin, fpExact, fpMul, hne])
  · exact (divf_writes_of_nonZero a b (fpIsZero_of_fpMag hc hne)).inf (by simp [hb, hfin, fpExact, fpDiv])

theorem finite_inf_writes (a : Reg) {m : Bool} (hb : isFinite (s.reg b)) (hc : s.reg c = fpInf m) :
    Writes (.addf a b c) s a (fpInf m) ∧ Writes (.subf a b c) s a (fpInf (!m)) ∧
    (fpMag (s.reg b) = 0 → WritesNan (.mulf a b c) s a) ∧
    (fpMag (s.reg b) ≠ 0 → Writes (.mulf a b c) s a (fpInf ((s.reg b).msb != m))) ∧
    Writes (.divf a b c) s a (fpPattern ((s.reg b).msb != m) 0) := by
  have hfin := fpUnpack_of_finite _ hb
  have hnonZero : fpIsZero (s.reg c) = false := by rw [fpIsZero, hc, fpUnpack_fpInf]
  refine ⟨?_, ?_, fun hzero => ?_, fun hne => ?_, ?_⟩
  · exact (addf_writes a b c s).inf (by simp [hc, hfin, fpExact, fpAdd])
  · exact (subf_writes a b c s).inf (by simp [hc, hfin, fpExact, fpSub, fpAdd, FpVal.neg])
  · exact (mulf_writes a b c s).nan (by simp [hc, hfin, fpExact, fpMul, hzero])
  · exact (mulf_writes a b c s).inf (by simp [hc, hfin, fpExact, fpMul, hne])
  · have hexact : fpExact .divf (fpUnpack (s.reg b)) (fpUnpack (s.reg c)) = .ratio ((s.reg b).msb != m) 0 1 := by
      rw [hfin, hc, fpUnpack_fpInf, fpExact, fpDiv]
    have hwrites := divf_writes_of_nonZero a b hnonZero
    rwa [fpResult_of_ratio hexact, fpRoundLow_zero] at hwrites

end Special

/-- Settles O35: the four clauses by the kinds of the two operands. -/
theorem floatSpecialOperands : Obligations.FloatSpecialOperands := by
  unfold Obligations.FloatSpecialOperands
  exact fun a _ _ _ => ⟨nan_operand_writesNan a, fun _ _ hb hc => inf_inf_writes a hb hc,
    fun _ hb hc => inf_finite_writes a hb hc, fun _ hb hc => finite_inf_writes a hb hc⟩

end Sys2Proof
